-- ==== Sys2Proof/Word.lean ====
section
/-! DEFINITION. The two word types of the CORE: a byte (memory cell, operand, FL) and a 9-bit register cell. -/

namespace Sys2Proof

/-- A byte, 0..255 (00_scope.md rule R7; 20_memory.md rule R41). -/
abbrev Byte := BitVec 8

/-- A register cell: 9 bits, so that the empty-stack value 256 fits (10_state.md rule R22, decision D1).
Only 0..256 is reachable (R34); `Sys2Proof.State.Inv` in Safety.lean says so. -/
abbrev RegVal := BitVec 9

/-- A register index 0..7, naming R0..R7 (10_state.md rule R21). -/
abbrev RegIdx := Fin 8

end Sys2Proof
end

