-- ==== Sys2Proof/Syntax.lean ====
section
/-! DEFINITION. The thirteen instructions of the CORE (00_scope.md rule R2), their operations, formats and widths
(30_encoding.md rules R60 to R62). -/

namespace Sys2Proof

/-- The thirteen operations, in the order of the opcode map (30_encoding.md rule R65). -/
inductive Op where
  | ldi | prn | hlt | mul | add | push | pop | call | ret | cmp | jeq | jne | jmp
  deriving DecidableEq, Repr

/-- The four instruction formats of 30_encoding.md rule R62. -/
inductive Format where
  /-- opcode alone, 1 byte -/
  | n
  /-- opcode and a register operand, 2 bytes -/
  | r
  /-- opcode, a register operand and an immediate byte, 3 bytes -/
  | ri
  /-- opcode and two register operands, 3 bytes -/
  | rr
  deriving DecidableEq, Repr

/-- A decoded instruction, one constructor per row of spec/opcode_table.json. A register operand is an index
0..7: a byte of 8 or more names no register and never gets past the decoder (30_encoding.md rules R63, R68). -/
inductive Instr where
  /-- LDI: `x[a] <- imm` (R100) -/
  | ldi (a : RegIdx) (imm : Byte)
  /-- PRN: emit `x[a]` (R101) -/
  | prn (a : RegIdx)
  /-- HLT: end the run (R102) -/
  | hlt
  /-- MUL: `x[a] <- (x[a] * x[b]) mod 256` (R122) -/
  | mul (a b : RegIdx)
  /-- ADD: `x[a] <- (x[a] + x[b]) mod 256` (R121) -/
  | add (a b : RegIdx)
  /-- PUSH: push `x[a]` (R143) -/
  | push (a : RegIdx)
  /-- POP: pop into `x[a]` (R144) -/
  | pop (a : RegIdx)
  /-- CALL: push the return address, jump to `x[a]` (R145) -/
  | call (a : RegIdx)
  /-- RET: pop the program counter (R146) -/
  | ret
  /-- CMP: set FL from `x[a]` and `x[b]` (R123) -/
  | cmp (a b : RegIdx)
  /-- JEQ: jump to `x[a]` if E is set (R171) -/
  | jeq (a : RegIdx)
  /-- JNE: jump to `x[a]` if E is clear (R172) -/
  | jne (a : RegIdx)
  /-- JMP: jump to `x[a]` (R170) -/
  | jmp (a : RegIdx)
  deriving DecidableEq, Repr

/-- The operations as a list, in the order of the opcode map. -/
def Op.all : List Op :=
  [.ldi, .prn, .hlt, .mul, .add, .push, .pop, .call, .ret, .cmp, .jeq, .jne, .jmp]

/-- The format of each operation (30_encoding.md rules R62, R65). -/
def Op.format : Op → Format
  | .ldi => .ri
  | .prn => .r
  | .hlt => .n
  | .mul => .rr
  | .add => .rr
  | .push => .r
  | .pop => .r
  | .call => .r
  | .ret => .n
  | .cmp => .rr
  | .jeq => .r
  | .jne => .r
  | .jmp => .r

/-- Operand bytes of a format (30_encoding.md rule R61: the count is looked up, not read from opcode bits). -/
def Format.operandCount : Format → Nat
  | .n => 0
  | .r => 1
  | .ri => 2
  | .rr => 2

/-- How many of a format's leading operands are register operands (30_encoding.md rule R62). -/
def Format.registerCount : Format → Nat
  | .n => 0
  | .r => 1
  | .ri => 1
  | .rr => 2

/-- Operand bytes of an operation. -/
def Op.operandCount (op : Op) : Nat := op.format.operandCount

/-- Width in bytes: 1 + operand count (30_encoding.md rules R60, R61). -/
def Op.width (op : Op) : Nat := 1 + op.operandCount

/-- The operation of an instruction. -/
def Instr.op : Instr → Op
  | .ldi _ _ => .ldi
  | .prn _ => .prn
  | .hlt => .hlt
  | .mul _ _ => .mul
  | .add _ _ => .add
  | .push _ => .push
  | .pop _ => .pop
  | .call _ => .call
  | .ret => .ret
  | .cmp _ _ => .cmp
  | .jeq _ => .jeq
  | .jne _ => .jne
  | .jmp _ => .jmp

/-- The width in bytes of an instruction (30_encoding.md rule R60). -/
def Instr.width (i : Instr) : Nat := i.op.width

end Sys2Proof
end

