-- ==== Sys2Proof/Config.lean ====
section
/-! DEFINITION. What this hardware fixes (00_scope.md rule R6). The starred parameters of R6 have their TYPES here
and their default VALUES beside the code that uses them, where a later repair may change a body:
`Config.opcodeMap` in Decode.lean, `Config.stackFloor` in Machine/Ops.lean, `Config.flagLayout` in Machine/Flags.lean.
Every definition that reads a starred parameter is given for EVERY value of it, under a name that ends in `With` or `At`,
up to the step (`stepWith` in Machine/Configured.lean) and the run; `exec` and `step` are these at the defaults. The spec
leaves no value free, so there is no opaque constant. -/

namespace Sys2Proof

/-- `OPCODE_MAP`: the opcode byte of each operation (30_encoding.md rule R65, decision D3). -/
abbrev OpcodeMap := Op → Byte

/-- `FL_E_BIT`, `FL_G_BIT`, `FL_L_BIT`: where FL holds its three flags (10_state.md rule R28, decision D4). -/
structure FlagLayout where
  e : Nat
  g : Nat
  l : Nat
  deriving DecidableEq, Repr

/-- The starred parameters of 00_scope.md rule R6, which the source does not fix. Any natural number is a stack floor. -/
structure Params where
  /-- `OPCODE_MAP` (decision D3) -/
  opcodeMap : OpcodeMap
  /-- `FL_E_BIT`, `FL_G_BIT`, `FL_L_BIT` (decision D4) -/
  flagLayout : FlagLayout
  /-- `STACK_FLOOR`: the lowest address a push may write (decision D6) -/
  stackFloor : Nat

/-- `MEM_CAPACITY`: 256 cells, addresses 0..255. -/
def Config.memCapacity : Nat := 256

/-- `SP_INDEX`: register 7 is the stack pointer (10_state.md rule R23). -/
def Config.spIndex : RegIdx := 7

/-- `SP_INIT`: what `run()` writes to the stack pointer, the memory capacity. -/
def Config.spInit : RegVal := 256

/-- Instructions are at most 3 bytes: `MAX_OPERANDS` is 2. -/
def Config.maxWidth : Nat := 3

end Sys2Proof
end

