-- ==== Sys2Proof/WellFormed.lean ====
section
/-! DEFINITION. The checks on data that the types do not already make. A register operand inside `Instr` is an index
0..7 by its type, so the checks are about the raw bytes, the place of an instruction, and the parameters. -/

namespace Sys2Proof

/-- A byte names a register when it is 0..7; no bit of it is ignored (30_encoding.md rule R63). -/
def Byte.isRegister (f : Byte) : Bool := decide (f.toNat < 8)

/-- `bs` are well-formed operand bytes of `op`: as many as the opcode table lists (R61), each register operand 0..7
(R63); an immediate is unchecked (R64). -/
def Op.operandsWf (op : Op) (bs : List Byte) : Bool :=
  bs.length == op.operandCount && (bs.take op.format.registerCount).all Byte.isRegister

/-- The bytes of `i` placed at `pc` all lie in memory (20_memory.md rule R46; 40_dispatch_loop.md rule R85 rows 1, 3, 4). -/
def Instr.fitsAt (i : Instr) (pc : Nat) : Bool := decide (pc + i.width ≤ Config.memCapacity)

/-- An opcode map gives no byte to two operations, so that decoding is unambiguous (30_encoding.md rule R65). -/
def OpcodeMap.wf (m : OpcodeMap) : Bool := (Op.all.map m).Nodup

/-- The three flags of FL are three different bits of a byte (10_state.md rules R27, R28). -/
def FlagLayout.wf (l : FlagLayout) : Bool :=
  decide (l.e < 8) && decide (l.g < 8) && decide (l.l < 8) && l.e != l.g && l.e != l.l && l.g != l.l

/-- The starred parameters make a machine: an unambiguous opcode map and three separate flags. -/
def Params.wf (p : Params) : Bool := p.opcodeMap.wf && p.flagLayout.wf

end Sys2Proof
end

