-- ==== Sys2Proof/Decode.lean ====
section
/-! DEFINITION. The decoder of the fetch_decode_unit (30_encoding.md rule R68) and the encoder, both written from the
opcode map (R65) and the formats (R62), and the assembler spelling of an instruction (R70). -/

namespace Sys2Proof

/-- The opcode map of 30_encoding.md rule R65. LDI, PRN and HLT are the source's values (§8); the other ten are the
spec's decision D3 from general knowledge (log entry 1). -/
def Config.opcodeMap : OpcodeMap
  | .ldi => 0b10000010
  | .prn => 0b01000111
  | .hlt => 0b00000001
  | .mul => 0b10100010
  | .add => 0b10100000
  | .push => 0b01000101
  | .pop => 0b01000110
  | .call => 0b01010000
  | .ret => 0b00010001
  | .cmp => 0b10100111
  | .jeq => 0b01010101
  | .jne => 0b01010110
  | .jmp => 0b01010100

/-- The operation an opcode byte stands for; none for an illegal byte (30_encoding.md rules R66, R87). -/
def OpcodeMap.lookup (m : OpcodeMap) (b : Byte) : Option Op := Op.all.find? (fun op => m op == b)

/-- Why decoding stops, in the order of the checks of 30_encoding.md rule R68. -/
inductive DecodeError where
  /-- the byte at this offset from the opcode is outside memory -/
  | missingByte (offset : Nat)
  /-- the opcode byte is not in the opcode map -/
  | illegalOpcode
  /-- a register operand byte of 8 or more -/
  | invalidRegister (f : Byte)
  deriving DecidableEq, Repr

/-- Where the decoder reads: the byte at an offset from the opcode, or none where there is no such byte. -/
abbrev Reader := Nat → Option Byte

/-- Read the byte at an offset, or stop there. -/
def fetchByte (read : Reader) (k : Nat) : Except DecodeError Byte :=
  match read k with
  | some b => .ok b
  | none => .error (.missingByte k)

/-- A register operand is the whole byte, 0..7 (30_encoding.md rule R63). -/
def registerOperand (f : Byte) : Except DecodeError RegIdx :=
  if h : f.toNat < 8 then .ok ⟨f.toNat, h⟩ else .error (.invalidRegister f)

/-- Format R: read `a`, then check it. -/
def decodeR (read : Reader) (c : RegIdx → Instr) : Except DecodeError Instr := do
  let a ← fetchByte read 1
  let ra ← registerOperand a
  return c ra

/-- Format RI: read `a` and `b`, then check `a`; `b` is an immediate, taken whole (30_encoding.md rule R64). -/
def decodeRI (read : Reader) (c : RegIdx → Byte → Instr) : Except DecodeError Instr := do
  let a ← fetchByte read 1
  let b ← fetchByte read 2
  let ra ← registerOperand a
  return c ra b

/-- Format RR: read `a` and `b`, then check `a`, then `b`. -/
def decodeRR (read : Reader) (c : RegIdx → RegIdx → Instr) : Except DecodeError Instr := do
  let a ← fetchByte read 1
  let b ← fetchByte read 2
  let ra ← registerOperand a
  let rb ← registerOperand b
  return c ra rb

/-- The operand part of 30_encoding.md rule R68, by operation. -/
def decodeOperands (read : Reader) : Op → Except DecodeError Instr
  | .ldi => decodeRI read .ldi
  | .prn => decodeR read .prn
  | .hlt => .ok .hlt
  | .mul => decodeRR read .mul
  | .add => decodeRR read .add
  | .push => decodeR read .push
  | .pop => decodeR read .pop
  | .call => decodeR read .call
  | .ret => .ok .ret
  | .cmp => decodeRR read .cmp
  | .jeq => decodeR read .jeq
  | .jne => decodeR read .jne
  | .jmp => decodeR read .jmp

/-- 30_encoding.md rule R68 under any opcode map: the opcode, then as many operand bytes as its operation has, then
the register checks. Bytes beyond the instruction are not read. -/
def decodeWith (m : OpcodeMap) (read : Reader) : Except DecodeError Instr := do
  let opc ← fetchByte read 0
  match m.lookup opc with
  | none => .error .illegalOpcode
  | some op => decodeOperands read op

/-- The decoder under this hardware's opcode map. -/
def decode (read : Reader) : Except DecodeError Instr := decodeWith Config.opcodeMap read

/-- The decoder on a list of bytes, the opcode first. -/
def decodeBytes (bs : List Byte) : Except DecodeError Instr := decode (fun k => bs[k]?)

/-- The byte that names a register. -/
def registerByte (a : RegIdx) : Byte := BitVec.ofNat 8 a.val

/-- The operand bytes of an instruction, in address order (30_encoding.md rule R62). -/
def Instr.operandBytes : Instr → List Byte
  | .ldi a imm => [registerByte a, imm]
  | .prn a => [registerByte a]
  | .hlt => []
  | .mul a b => [registerByte a, registerByte b]
  | .add a b => [registerByte a, registerByte b]
  | .push a => [registerByte a]
  | .pop a => [registerByte a]
  | .call a => [registerByte a]
  | .ret => []
  | .cmp a b => [registerByte a, registerByte b]
  | .jeq a => [registerByte a]
  | .jne a => [registerByte a]
  | .jmp a => [registerByte a]

/-- The bytes of an instruction under any opcode map: the opcode, then the operands. -/
def encodeWith (m : OpcodeMap) (i : Instr) : List Byte := m i.op :: i.operandBytes

/-- The bytes of an instruction under this hardware's opcode map. -/
def encode (i : Instr) : List Byte := encodeWith Config.opcodeMap i

/-- The bytes of an instruction given as a number, as spec/opcode_table.json numbers its bits: the first byte is bits
7..0, the second 15..8, the third 23..16; every bit from `nbits` up is 0. -/
def tableBytes (nbits w : Nat) : List Byte :=
  [BitVec.ofNat 8 (w % 2 ^ nbits), BitVec.ofNat 8 (w % 2 ^ nbits / 2 ^ 8), BitVec.ofNat 8 (w % 2 ^ nbits / 2 ^ 16)]

/-- What the decoder reads from an instruction numbered as the opcode table numbers it. -/
def decodeTableWord (nbits w : Nat) : Option Instr := (decodeBytes (tableBytes nbits w)).toOption

/-- The mnemonic of an operation, as spec/opcode_table.json has it. -/
def Op.mnemonic : Op → String
  | .ldi => "LDI"
  | .prn => "PRN"
  | .hlt => "HLT"
  | .mul => "MUL"
  | .add => "ADD"
  | .push => "PUSH"
  | .pop => "POP"
  | .call => "CALL"
  | .ret => "RET"
  | .cmp => "CMP"
  | .jeq => "JEQ"
  | .jne => "JNE"
  | .jmp => "JMP"

/-- A register as the assembler writes it, `R0`..`R7`. -/
def registerAsm (a : RegIdx) : String := "R" ++ toString a.val

/-- The operands as the assembler writes them. -/
def Instr.operandAsm : Instr → List String
  | .ldi a imm => [registerAsm a, toString imm.toNat]
  | .prn a => [registerAsm a]
  | .hlt => []
  | .mul a b => [registerAsm a, registerAsm b]
  | .add a b => [registerAsm a, registerAsm b]
  | .push a => [registerAsm a]
  | .pop a => [registerAsm a]
  | .call a => [registerAsm a]
  | .ret => []
  | .cmp a b => [registerAsm a, registerAsm b]
  | .jeq a => [registerAsm a]
  | .jne a => [registerAsm a]
  | .jmp a => [registerAsm a]

/-- The assembler spelling of an instruction: the mnemonic, a space, the operands separated by a comma
(30_encoding.md rule R70, decision D20). -/
def Instr.asm (i : Instr) : String :=
  match i.operandAsm with
  | [] => i.op.mnemonic
  | a :: rest => i.op.mnemonic ++ " " ++ rest.foldl (fun text b => text ++ "," ++ b) a

end Sys2Proof
end

