-- ==== Sys2Proof/Machine/State.lean ====
section
/-! DEFINITION. The whole state of the CORE as plain data (10_state.md rules R20 to R33), its reset value (R36), and the
reasons a step stops. -/

namespace Sys2Proof.Machine

/-- Memory: the cells that do not hold 0, as (address, byte) pairs with strictly rising addresses below 256
(`Memory.wf` in Ops.lean). A cell that is not listed reads as 0, since memory is zero-initialized (10_state.md R20). -/
abbrev Memory := List Host.Cell

/-- The register file, R0..R7; R7 is the stack pointer (10_state.md rules R21 to R23). -/
structure Regs where
  r0 : RegVal
  r1 : RegVal
  r2 : RegVal
  r3 : RegVal
  r4 : RegVal
  r5 : RegVal
  r6 : RegVal
  r7 : RegVal
  deriving DecidableEq, Repr

/-- The error taxonomy (60_exceptions.md rule R200). -/
inductive FaultKind where
  /-- raised by the host's `loadImage` only, never by a step, and never recorded (R206) -/
  | imageTooLarge
  /-- every step, at decode: the byte at `pc` is not in the opcode map -/
  | illegalOpcode
  /-- PUSH, CALL: no room below the stack pointer -/
  | stackOverflow
  /-- POP, RET: the stack is empty -/
  | stackUnderflow
  /-- every step, at a fetch outside memory, and CALL whose return address is no address -/
  | outOfBoundsAccess
  /-- every instruction with a register operand, at decode: an operand byte of 8 or more -/
  | invalidRegister
  deriving DecidableEq, Repr

/-- The fault record of 10_state.md rule R31 and 60_exceptions.md rule R202. -/
structure FaultRecord where
  kind : FaultKind
  code : Nat
  pc : Nat
  opcode : Option Byte
  address : Nat
  deriving DecidableEq, Repr

/-- All of the CORE's state (10_state.md rules R20 to R32; there is nothing else, R33). -/
structure State where
  /-- the 256 memory cells (R20) -/
  mem : Memory
  /-- R0..R7 (R21) -/
  regs : Regs
  /-- the program counter, an integer 0..256 that no arithmetic reduces (R25, R26; log entry 5) -/
  pc : Nat
  /-- the flag register FL (R27 to R29) -/
  fl : Byte
  /-- the running flag (R30) -/
  running : Bool
  /-- the fault record (R31) -/
  fault : Option FaultRecord
  /-- the observer output: one value per executed PRN, the oldest first (R32) -/
  output : List RegVal
  deriving DecidableEq, Repr

/-- Every register at 0. -/
def Regs.zero : Regs := ⟨0, 0, 0, 0, 0, 0, 0, 0⟩

/-- The state after construction and after `reset()` (10_state.md rule R36; 70_reset_and_hazards.md rules R230, R231).
The observer output is the host's; it starts empty (log entry 10). -/
def State.reset : State where
  mem := []
  regs := Regs.zero
  pc := 0
  fl := 0
  running := false
  fault := none
  output := []

/-- Why a step stops with a fault. -/
inductive Fault where
  /-- Raised by `step` alone, when the fault record is already set: the run has ended and the fault is reported to its
  caller (40_dispatch_loop.md rules R80, R83; 60_exceptions.md rule R204). The step that RAISES a fault answers a next
  state that holds the record (R81). Safe: the hardware takes no step here either (R205). -/
  | recorded (r : FaultRecord)
  deriving DecidableEq, Repr

/-- Why a step or a meaning refuses. -/
inductive Refusal where
  /-- Raised by an arm of `exec` for an instruction without a meaning; no arm does. Safe. -/
  | notModelled (mnemonic : String)
  /-- Raised by `step` alone, when `running` is false and no fault is recorded: no step is enabled until the host calls
  `run()` (40_dispatch_loop.md rule R80; 60_exceptions.md rule R213). Safe: the hardware takes no step here either. -/
  | notRunning
  /-- Raised by PUSH when the register holds more than 255, so that no rule says which byte is written: `MemWrite` is
  defined for a byte only (20_memory.md rule R42). No reachable state does this (10_state.md rule R34;
  93_implementation_defined.md U16: refuse). Safe (log entry 6). -/
  | valueAboveByte
  deriving DecidableEq, Repr

/-- What a step or a meaning answers. -/
abbrev Result := Host.Outcome State Fault Refusal

end Sys2Proof.Machine
end

