-- ==== Sys2Proof/Machine/Ops.lean ====
section
/-! DEFINITION. The shared operations, by the block that holds them (00_scope.md rule R3): memory_access_controller,
register_file, program_counter_sequencer, stack_pointer_logic, the arithmetic of alu_with_flags, and the
instruction_dispatch's raise of a fault and emission of output. -/

namespace Sys2Proof.Machine

/-! ### Memory as a list in canonical form -/

/-- What an unlisted address reads as: memory is zero-initialized (10_state.md rule R20). -/
def Memory.unlisted : Byte := 0

/-- The cell at an address. -/
def Memory.get : Memory → Nat → Byte
  | [], _ => Memory.unlisted
  | c :: m, a => if c.1 = a then c.2 else Memory.get m a

/-- Put a cell before the first one with a higher address. -/
def Memory.insert (a : Nat) (v : Byte) : Memory → Memory
  | [] => [(a, v)]
  | c :: m => if a < c.1 then (a, v) :: c :: m else c :: Memory.insert a v m

/-- Write one cell, keeping the canonical form: no entry holds what an unlisted address reads as. -/
def Memory.set (m : Memory) (a : Nat) (v : Byte) : Memory :=
  if v = Memory.unlisted then m.filter (fun c => c.1 != a)
  else Memory.insert a v (m.filter (fun c => c.1 != a))

/-- Write bytes at rising addresses. -/
def Memory.setBytes : Memory → Nat → List Byte → Memory
  | m, _, [] => m
  | m, a, b :: bs => Memory.setBytes (Memory.set m a b) (a + 1) bs

/-- The canonical form of the cells from address `lo` on. -/
def Memory.wfFrom : Nat → Memory → Bool
  | _, [] => true
  | lo, c :: m =>
    decide (lo ≤ c.1) && decide (c.1 < Config.memCapacity) && c.2 != Memory.unlisted && Memory.wfFrom (c.1 + 1) m

/-- Memory is in canonical form: addresses strictly rising and below the capacity, no entry equal to what an unlisted
address reads as. -/
def Memory.wf (m : Memory) : Bool := Memory.wfFrom 0 m

/-! ### The memory_access_controller -/

/-- `MemRead(addr, 1)`: the byte, or none where the access is out of bounds (20_memory.md rule R41). -/
def State.memRead (s : State) (addr : Nat) : Option Byte :=
  if addr < Config.memCapacity then some (s.mem.get addr) else none

/-- `MemWrite(addr, 1, v)`: the state after it, or none where the access is out of bounds (20_memory.md rule R42). -/
def State.memWrite (s : State) (addr : Nat) (v : Byte) : Option State :=
  if addr < Config.memCapacity then some { s with mem := s.mem.set addr v } else none

/-! ### The register_file -/

/-- Read a register. -/
def Regs.get (r : Regs) : RegIdx → RegVal
  | 0 => r.r0
  | 1 => r.r1
  | 2 => r.r2
  | 3 => r.r3
  | 4 => r.r4
  | 5 => r.r5
  | 6 => r.r6
  | 7 => r.r7

/-- Write a register. -/
def Regs.set (r : Regs) (i : RegIdx) (v : RegVal) : Regs :=
  match i with
  | 0 => { r with r0 := v }
  | 1 => { r with r1 := v }
  | 2 => { r with r2 := v }
  | 3 => { r with r3 := v }
  | 4 => { r with r4 := v }
  | 5 => { r with r5 := v }
  | 6 => { r with r6 := v }
  | 7 => { r with r7 := v }

/-- `x[i]` (00_scope.md rule R8). -/
def State.reg (s : State) (i : RegIdx) : RegVal := s.regs.get i

/-- `x[i] <- v`. No register is hardwired (10_state.md rule R21). -/
def State.setReg (s : State) (i : RegIdx) (v : RegVal) : State := { s with regs := s.regs.set i v }

/-- `sp`, another name for `x[7]` (10_state.md rule R23). -/
def State.sp (s : State) : RegVal := s.reg Config.spIndex

/-- `sp <- v`, which is `x[7] <- v`. -/
def State.setSp (s : State) (v : RegVal) : State := s.setReg Config.spIndex v

/-! ### The program_counter_sequencer -/

/-- What the sequencer takes at the end of a step (10_state.md rule R35). -/
inductive NextPc where
  /-- `SEQ(width)` -/
  | seq (width : Nat)
  /-- `TARGET(v)` -/
  | target (v : Nat)
  /-- `HOLD`, taken on a fault -/
  | hold
  deriving DecidableEq, Repr

/-- Select the next program counter; the sum is not reduced modulo anything (10_state.md rule R26). -/
def State.sequence (s : State) : NextPc → State
  | .seq width => { s with pc := s.pc + width }
  | .target v => { s with pc := v }
  | .hold => s

/-! ### The other state elements -/

/-- `fl <- v`. -/
def State.setFl (s : State) (v : Byte) : State := { s with fl := v }

/-- `running <- b`. -/
def State.setRunning (s : State) (b : Bool) : State := { s with running := b }

/-- `emit(v)`: append a value to the observer output (10_state.md rule R32). -/
def State.emit (s : State) (v : RegVal) : State := { s with output := s.output ++ [v] }

/-- The textual line of a value: its decimal numeral without leading zeros, then a newline (10_state.md rule R32). -/
def outputLine (v : RegVal) : List Char := Nat.toDigits 10 v.toNat ++ ['\n']

/-- The text of the observer output, one line per value. -/
def State.outputText (s : State) : List Char := s.output.flatMap outputLine

/-! ### The arithmetic of the alu_with_flags: exact, then modulo 256 (42_alu.md rule R120) -/

/-- The sum modulo 256 (42_alu.md rule R121). -/
def addMod256 (va vb : RegVal) : RegVal := BitVec.ofNat 9 ((va.toNat + vb.toNat) % 256)

/-- The product modulo 256 (42_alu.md rule R122). -/
def mulMod256 (va vb : RegVal) : RegVal := BitVec.ofNat 9 ((va.toNat * vb.toNat) % 256)

/-! ### The stack_pointer_logic -/

/-- `STACK_FLOOR`: there is no reserved region below the stack (decision D6; log entry 3). -/
def Config.stackFloor : Nat := 0

/-- The push bound check of 43_stack_call.md rule R141 for any floor, over the integers: `sp - 1 < STACK_FLOOR`. -/
def pushOverflowsAt (floor : Nat) (sp : RegVal) : Bool := decide ((sp.toNat : Int) - 1 < (floor : Int))

/-- The pop bound check of 43_stack_call.md rule R142: `sp + 1 > MEM_CAPACITY`. -/
def popUnderflows (sp : RegVal) : Bool := decide (sp.toNat + 1 > Config.memCapacity)

/-- `sp - 1`, used after the push bound check. -/
def spDown (sp : RegVal) : RegVal := sp - 1

/-- `sp + 1`, used after the pop bound check. -/
def spUp (sp : RegVal) : RegVal := sp + 1

/-! ### Faults -/

/-- The code of a fault (60_exceptions.md rule R200, decision D11). -/
def FaultKind.code : FaultKind → Nat
  | .imageTooLarge => 1
  | .illegalOpcode => 2
  | .stackOverflow => 3
  | .stackUnderflow => 4
  | .outOfBoundsAccess => 5
  | .invalidRegister => 6

/-- The record of a fault raised in state `s` (60_exceptions.md rule R202): the program counter of the faulting
instruction, its opcode byte where there is one, and the offending address. -/
def State.record (s : State) (k : FaultKind) (address : Nat) : FaultRecord :=
  ⟨k, k.code, s.pc, s.memRead s.pc, address⟩

/-- `s` with the record of a fault, and nothing else changed (40_dispatch_loop.md rule R84). -/
def State.withFault (s : State) (k : FaultKind) (address : Nat) : State := { s with fault := some (s.record k address) }

/-- TAKING A FAULT (40_dispatch_loop.md rules R81, R84; 60_exceptions.md rules R202 to R204): `s` is the state BEFORE the
instruction, which is kept but for the fault record; the program counter is held. There is no handler and no return. -/
def State.raise (s : State) (k : FaultKind) (address : Nat) : Result := .next (s.withFault k address)

/-- Go on with the byte at an address, or raise `OutOfBoundsAccess`. -/
def State.load (s : State) (addr : Nat) (go : Byte → Result) : Result :=
  match s.memRead addr with
  | none => s.raise .outOfBoundsAccess addr
  | some v => go v

/-- Write a byte in `s` and go on, or raise `OutOfBoundsAccess` in `start`, the state before the instruction. -/
def State.store (start s : State) (addr : Nat) (v : Byte) (go : State → Result) : Result :=
  match s.memWrite addr v with
  | none => start.raise .outOfBoundsAccess addr
  | some t => go t

/-! ### The fetch_decode_unit -/

/-- Decode the instruction at the program counter from current memory (20_memory.md rule R51; 30_encoding.md rule R68),
under any opcode map. -/
def State.fetchDecodeWith (m : OpcodeMap) (s : State) : Except DecodeError Instr :=
  decodeWith m (fun k => s.memRead (s.pc + k))

/-- Decode the instruction at the program counter under this hardware's opcode map. -/
def State.fetchDecode (s : State) : Except DecodeError Instr := s.fetchDecodeWith Config.opcodeMap

/-- The fault a decode error raises, with the address 60_exceptions.md rule R200 records for it. -/
def State.raiseDecode (s : State) : DecodeError → Result
  | .missingByte k => s.raise .outOfBoundsAccess (s.pc + k)
  | .illegalOpcode => s.raise .illegalOpcode s.pc
  | .invalidRegister f => s.raise .invalidRegister f.toNat

/-- A step is enabled only when the core runs and no fault is recorded (40_dispatch_loop.md rule R80). -/
def State.enabled (s : State) : Bool := s.running && s.fault.isNone

/-- One step (40_dispatch_loop.md rule R81) of what the fetch_decode_unit decodes and the instruction_dispatch executes. A
step is enabled only when `running` is true and no fault is recorded (rule R80); otherwise there is no step, and the
answer says why (log entry 12). A fault that the step raises is a next state that holds its record. -/
def State.cycle (s : State) (decoded : Except DecodeError Instr) (execute : Instr → Result) : Result :=
  match s.fault with
  | some r => .fault (.recorded r)
  | none =>
    if s.running then
      match decoded with
      | .error e => s.raiseDecode e
      | .ok i => execute i
    else .refused .notRunning

end Sys2Proof.Machine
end

