-- ==== Sys2Proof/Machine/Flags.lean ====
section
/-! DEFINITION. The flag register FL: the one flag computation, CMP's (42_alu.md rule R124), and the one flag test, E
(44_jumps.md rules R171, R172). -/

namespace Sys2Proof.Machine

/-- E is bit 0, G is bit 1, L is bit 2 (10_state.md rule R28, decision D4; log entry 2). -/
def Config.flagLayout : FlagLayout := ⟨0, 1, 2⟩

/-- The byte with one bit set. -/
def bitByte (n : Nat) : Byte := BitVec.twoPow 8 n

/-- The flag function under any layout: exactly one bit is set, by the order of the values as non-negative integers
(42_alu.md rules R123, R124). -/
def flagsWith (l : FlagLayout) (va vb : RegVal) : Byte :=
  if va.toNat = vb.toNat then bitByte l.e else if va.toNat > vb.toNat then bitByte l.g else bitByte l.l

/-- The flag function of this hardware. -/
def flags (va vb : RegVal) : Byte := flagsWith Config.flagLayout va vb

/-- The E bit of FL, under any layout. -/
def State.equalFlagWith (l : FlagLayout) (s : State) : Bool := s.fl.getLsbD l.e

/-- The E bit of FL. -/
def State.equalFlag (s : State) : Bool := s.equalFlagWith Config.flagLayout

end Sys2Proof.Machine
end

