-- ==== Sys2Proof/Machine/Alu.lean ====
section
/-! DEFINITION. ADD, MUL, CMP (42_alu.md). -/

namespace Sys2Proof.Machine

/-- MUL (rule R122): `x[a] <- (x[a] * x[b]) mod 256; pc <- pc + 3`. -/
def execMul (a b : RegIdx) (s : State) : Result :=
  .next ((s.setReg a (mulMod256 (s.reg a) (s.reg b))).sequence (.seq 3))

/-- ADD (rule R121): `x[a] <- (x[a] + x[b]) mod 256; pc <- pc + 3`. -/
def execAdd (a b : RegIdx) (s : State) : Result :=
  .next ((s.setReg a (addMod256 (s.reg a) (s.reg b))).sequence (.seq 3))

/-- CMP (rule R123) under any layout of FL: `fl <- flags(x[a], x[b]); pc <- pc + 3`. -/
def execCmpWith (l : FlagLayout) (a b : RegIdx) (s : State) : Result :=
  .next ((s.setFl (flagsWith l (s.reg a) (s.reg b))).sequence (.seq 3))

/-- CMP under this hardware's layout of FL. -/
def execCmp (a b : RegIdx) (s : State) : Result := execCmpWith Config.flagLayout a b s

end Sys2Proof.Machine
end

