-- ==== Sys2Proof/Machine/Operands.lean ====
section
/-! DEFINITION. The operand forms of the CORE: register and immediate (30_encoding.md rules R63, R64), and the narrowing
of a register value to the byte a memory cell holds. -/

namespace Sys2Proof.Machine

/-- A byte in a 9-bit register: `zext_9(b)`, never sign-extended (30_encoding.md rule R64). -/
def byteValue (b : Byte) : RegVal := b.setWidth 9

/-- The byte a register value is, where it is one (20_memory.md rule R42 stores a byte 0..255). -/
def byteOf (v : RegVal) : Option Byte := if v.toNat < 256 then some (v.setWidth 8) else none

/-- A register value as a control-transfer target, any value 0..256 (44_jumps.md rule R173). -/
def State.targetOf (s : State) (a : RegIdx) : NextPc := .target (s.reg a).toNat

end Sys2Proof.Machine
end

