-- ==== Sys2Proof/Machine/Jumps.lean ====
section
/-! DEFINITION. JMP, JEQ, JNE (44_jumps.md). No target is checked when the transfer happens (rule R173). -/

namespace Sys2Proof.Machine

/-- JEQ (rule R171) under any layout of FL: to `x[a]` if E is set, else `pc <- pc + 2`. -/
def execJeqWith (l : FlagLayout) (a : RegIdx) (s : State) : Result :=
  .next (s.sequence (if s.equalFlagWith l then s.targetOf a else .seq 2))

/-- JEQ under this hardware's layout of FL. -/
def execJeq (a : RegIdx) (s : State) : Result := execJeqWith Config.flagLayout a s

/-- JNE (rule R172) under any layout of FL: to `x[a]` if E is clear, else `pc <- pc + 2`. -/
def execJneWith (l : FlagLayout) (a : RegIdx) (s : State) : Result :=
  .next (s.sequence (if s.equalFlagWith l then .seq 2 else s.targetOf a))

/-- JNE under this hardware's layout of FL. -/
def execJne (a : RegIdx) (s : State) : Result := execJneWith Config.flagLayout a s

/-- JMP (rule R170): `pc <- x[a]`. -/
def execJmp (a : RegIdx) (s : State) : Result :=
  .next (s.sequence (s.targetOf a))

end Sys2Proof.Machine
end

