-- ==== Sys2Proof/Machine/LoadPrintHalt.lean ====
section
/-! DEFINITION. LDI, PRN, HLT (41_load_print_halt.md). -/

namespace Sys2Proof.Machine

/-- LDI (rule R100): `x[a] <- b; pc <- pc + 3`. -/
def execLdi (a : RegIdx) (imm : Byte) (s : State) : Result :=
  .next ((s.setReg a (byteValue imm)).sequence (.seq 3))

/-- PRN (rule R101): `emit(x[a]); pc <- pc + 2`. -/
def execPrn (a : RegIdx) (s : State) : Result :=
  .next ((s.emit (s.reg a)).sequence (.seq 2))

/-- HLT (rule R102): `running <- false; pc <- pc + 1`. -/
def execHlt (s : State) : Result :=
  .next ((s.setRunning false).sequence (.seq 1))

end Sys2Proof.Machine
end

