-- ==== Sys2Proof/Machine/Stack.lean ====
section
/-! DEFINITION. PUSH, POP, CALL, RET (43_stack_call.md). Effects happen in the order the rules write them, each reading the
state the one before left, which decides the forms whose operand is R7 (decision D8; log entry 8). A fault keeps `s`, the
state before the instruction. -/

namespace Sys2Proof.Machine

/-- PUSH (rule R143) above any stack floor: check, `sp <- sp - 1`, write `x[a]` as read after the decrement,
`pc <- pc + 2`. -/
def execPushAt (floor : Nat) (a : RegIdx) (s : State) : Result :=
  if pushOverflowsAt floor s.sp then s.raise .stackOverflow s.sp.toNat
  else
    let s1 := s.setSp (spDown s.sp)
    if s1.sp.toNat < Config.memCapacity then
      match byteOf (s1.reg a) with
      | some v => s.store s1 s1.sp.toNat v fun s2 => .next (s2.sequence (.seq 2))
      | none => .refused .valueAboveByte
    else s.raise .outOfBoundsAccess s1.sp.toNat

/-- PUSH above this hardware's stack floor. -/
def execPush (a : RegIdx) (s : State) : Result := execPushAt Config.stackFloor a s

/-- POP (rule R144): check, `x[a] <- MemRead(sp)`, `sp <- sp + 1` reading `x[7]` as just left, `pc <- pc + 2`. -/
def execPop (a : RegIdx) (s : State) : Result :=
  if popUnderflows s.sp then s.raise .stackUnderflow s.sp.toNat
  else
    s.load s.sp.toNat fun v =>
      let s1 := s.setReg a (byteValue v)
      let s2 := s1.setSp (spUp s1.sp)
      .next (s2.sequence (.seq 2))

/-- CALL (rule R145) above any stack floor: check the stack, check the return address `pc + 2`, `sp <- sp - 1`, write the
return address, `pc <- x[a]` as read after the decrement. -/
def execCallAt (floor : Nat) (a : RegIdx) (s : State) : Result :=
  if pushOverflowsAt floor s.sp then s.raise .stackOverflow s.sp.toNat
  else if s.pc + 2 > 255 then s.raise .outOfBoundsAccess (s.pc + 2)
  else
    let s1 := s.setSp (spDown s.sp)
    s.store s1 s1.sp.toNat (BitVec.ofNat 8 (s.pc + 2)) fun s2 => .next (s2.sequence (s2.targetOf a))

/-- CALL above this hardware's stack floor. -/
def execCall (a : RegIdx) (s : State) : Result := execCallAt Config.stackFloor a s

/-- RET (rule R146): check, `pc <- MemRead(sp)`, `sp <- sp + 1`. -/
def execRet (s : State) : Result :=
  if popUnderflows s.sp then s.raise .stackUnderflow s.sp.toNat
  else
    s.load s.sp.toNat fun v =>
      let s1 := s.sequence (.target v.toNat)
      .next (s1.setSp (spUp s1.sp))

end Sys2Proof.Machine
end

