-- ==== Sys2Proof/Machine/HostPort.lean ====
section
/-! DEFINITION. What the host may do between runs (70_reset_and_hazards.md rules R230 to R234): `reset()`, `loadImage`, the
entry of `run()`, and the read-only trace snapshot (60_exceptions.md rule R211). The loop of `run()` is in Run.lean. -/

namespace Sys2Proof.Machine

/-- `reset()` (rule R231): every element at its reset value but the observer output, which the host owns. -/
def State.hostReset (s : State) : State := { State.reset with output := s.output }

/-- `reset()` as the host calls it: refused during a run (rule R234, decision D21), and otherwise admitted, after HLT and
after a fault too (rule R231). A run is over when no step is enabled. -/
def State.resetEntry (s : State) : Option State := if s.enabled then none else some s.hostReset

/-- What `loadImage` gives back. -/
inductive LoadResult where
  /-- the image is in memory -/
  | ok (s : State)
  /-- `ImageTooLarge`, with `startAddress + len(bytes)`; nothing was written (R206) -/
  | imageTooLarge (address : Nat)
  /-- not admitted: the core runs or a fault is recorded -/
  | refused
  deriving DecidableEq, Repr

/-- `loadImage(bytes, startAddress = 0)` (rule R232): the bound is checked before any write. -/
def State.loadImage (s : State) (bytes : List Byte) (start : Nat := 0) : LoadResult :=
  if s.running || s.fault.isSome then .refused
  else if start + bytes.length > Config.memCapacity then .imageTooLarge (start + bytes.length)
  else .ok { s with mem := s.mem.setBytes start bytes }

/-- The two effects of `run()` on entry (rule R233): `running <- true; x[7] <- 256`. -/
def State.enterRun (s : State) : State := (s.setRunning true).setSp Config.spInit

/-- `run()` as the host calls it: refused during a run and while a fault is recorded (rules R233, R234). -/
def State.runEntry (s : State) : Option State :=
  if s.running || s.fault.isSome then none else some s.enterRun

/-- The trace snapshot: the program counter, the next three memory bytes (none past the end), the eight registers. -/
structure Snapshot where
  pc : Nat
  byte0 : Option Byte
  byte1 : Option Byte
  byte2 : Option Byte
  regs : Regs
  deriving DecidableEq, Repr

/-- Take the trace snapshot (60_exceptions.md rule R211, decision D22). -/
def State.snapshot (s : State) : Snapshot :=
  ⟨s.pc, s.memRead s.pc, s.memRead (s.pc + 1), s.memRead (s.pc + 2), s.regs⟩

/-- Store bytes at the program counter, as many as lie in memory. -/
def State.placeAtPc (s : State) (bytes : List Byte) : State :=
  { s with mem := s.mem.setBytes s.pc (bytes.take (Config.memCapacity - s.pc)) }

end Sys2Proof.Machine
end

