-- ==== Sys2Proof/Machine/Step.lean ====
section
/-! DEFINITION. One step of the fetch-decode-execute loop (40_dispatch_loop.md rules R80, R81). -/

namespace Sys2Proof.Machine

/-- One step (rule R81) of this hardware: `stepWith` at the default parameters, through `exec`. -/
def step (s : State) : Host.Outcome State Fault Refusal := s.cycle s.fetchDecode (fun i => exec i s)

/-- `s` with an instruction, numbered as spec/opcode_table.json numbers it, where `step` fetches next, and the core
running: where it does not run, it is set running as `run()` does (log entry 11). -/
def State.withFetchWord (s : State) (nbits w : Nat) : State :=
  let t := { s.placeAtPc (tableBytes nbits w) with fault := none }
  if s.running then t else t.enterRun

end Sys2Proof.Machine
end

