-- ==== Sys2Proof/Machine/Configured.lean ====
section
/-! DEFINITION. The machine with the starred parameters of 00_scope.md rule R6 as configuration, so that a claim on a step
or a run can assume other values than the defaults (decisions D3, D4, D6). `exec` of Dispatch.lean and `step` of Step.lean,
whose types the host fixes, are this machine at the defaults. -/

namespace Sys2Proof.Machine

/-- The starred parameters at their defaults. -/
def Config.params : Params := ⟨Config.opcodeMap, Config.flagLayout, Config.stackFloor⟩

/-- The instruction_dispatch under any parameters: the flag layout is read by CMP, JEQ and JNE, the stack floor by PUSH
and CALL, and nothing else reads a starred parameter. -/
def execWith (p : Params) (i : Instr) (s : State) : Result :=
  match i with
  | .ldi a imm => execLdi a imm s
  | .prn a => execPrn a s
  | .hlt => execHlt s
  | .mul a b => execMul a b s
  | .add a b => execAdd a b s
  | .push a => execPushAt p.stackFloor a s
  | .pop a => execPop a s
  | .call a => execCallAt p.stackFloor a s
  | .ret => execRet s
  | .cmp a b => execCmpWith p.flagLayout a b s
  | .jeq a => execJeqWith p.flagLayout a s
  | .jne a => execJneWith p.flagLayout a s
  | .jmp a => execJmp a s

/-- One step under any parameters (40_dispatch_loop.md rule R81): decoded by the opcode map, executed by `execWith`. -/
def stepWith (p : Params) (s : State) : Result := s.cycle (s.fetchDecodeWith p.opcodeMap) (fun i => execWith p i s)

end Sys2Proof.Machine
end

