-- ==== Sys2Proof/Machine/Run.lean ====
section
/-! DEFINITION. The loop of `run()` under fuel (70_reset_and_hazards.md rule R233; 40_dispatch_loop.md rules R83, R86,
R89), and the host's moves as data (rule R234). -/

namespace Sys2Proof.Machine

/-- How a run stands when its steps are over (40_dispatch_loop.md rule R89). -/
inductive RunResult where
  /-- HALTED: `running` is false and no fault is recorded -/
  | halted (s : State)
  /-- FAULTED: the fault record is set -/
  | faulted (r : FaultRecord) (s : State)
  /-- the fuel is spent and the run has not ended -/
  | unfinished (s : State)
  /-- the model refused a step (no reachable state does) -/
  | refused (r : Refusal) (s : State)
  deriving DecidableEq, Repr

/-- Steps of one run by a step function, at most `fuel` of them; the core itself has no step limit (rule R86). -/
def runLoopOf (next : State → Result) : Nat → State → RunResult
  | 0, s =>
    match s.fault with
    | some r => .faulted r s
    | none => if s.running then .unfinished s else .halted s
  | fuel + 1, s =>
    match next s with
    | .next t => runLoopOf next fuel t
    | .fault (.recorded r) => .faulted r s
    | .refused .notRunning => .halted s
    | .refused r => .refused r s

/-- Steps of one run of this hardware. -/
def runLoop (fuel : Nat) (s : State) : RunResult := runLoopOf step fuel s

/-- Steps of one run under any parameters. -/
def runLoopWith (p : Params) (fuel : Nat) (s : State) : RunResult := runLoopOf (stepWith p) fuel s

/-- `run()` (rule R233) with at most `fuel` steps; none where it is refused. -/
def run (fuel : Nat) (s : State) : Option RunResult := s.runEntry.map (runLoop fuel)

/-- `run()` under any parameters. -/
def runWith (p : Params) (fuel : Nat) (s : State) : Option RunResult := s.runEntry.map (runLoopWith p fuel)

/-- The host's moves (rule R234). The snapshot changes nothing and is `State.snapshot`. -/
inductive HostOp where
  | reset
  | loadImage (bytes : List Byte) (start : Nat)
  | run
  deriving DecidableEq, Repr

/-- The state a host move leaves. A move that is rejected or refused leaves the machine unchanged (rules R205, R206, R232 to
R234), which every move is during a run; `run` is its entry, after which the machine steps. -/
def State.hostMove (s : State) : HostOp → State
  | .reset => s.resetEntry.getD s
  | .loadImage bytes start =>
    match s.loadImage bytes start with
    | .ok t => t
    | .imageTooLarge _ => s
    | .refused => s
  | .run => s.runEntry.getD s

end Sys2Proof.Machine
end

