-- ==== Sys2Proof/Safety.lean ====
section
/-! DEFINITION. What claims speak of: the invariant of reachable states (10_state.md rule R34), the reachable states, the
fault a step raises as the spec's own table orders them (40_dispatch_loop.md rule R85), and what a frame keeps. -/

namespace Sys2Proof.Machine

/-- Every register but those listed is as before. -/
def State.sameRegsBut (s t : State) (rs : List RegIdx) : Prop := ∀ i, i ∉ rs → t.reg i = s.reg i

/-- Every address but those listed reads as before. -/
def State.sameMemBut (s t : State) (addrs : List Nat) : Prop := ∀ a, a ∉ addrs → t.memRead a = s.memRead a

/-- FL, `running`, the fault record and the observer output are as before. -/
def State.sameControl (s t : State) : Prop :=
  t.fl = s.fl ∧ t.running = s.running ∧ t.fault = s.fault ∧ t.output = s.output

/-- The program counter after an instruction that completes, by the table of 40_dispatch_loop.md rule R90. CALL reads its
target after the stack pointer is decremented. -/
def Instr.pcAfter (i : Instr) (s : State) : Nat :=
  match i with
  | .ldi _ _ => s.pc + 3
  | .mul _ _ => s.pc + 3
  | .add _ _ => s.pc + 3
  | .cmp _ _ => s.pc + 3
  | .prn _ => s.pc + 2
  | .push _ => s.pc + 2
  | .pop _ => s.pc + 2
  | .hlt => s.pc + 1
  | .call a => if a = Config.spIndex then s.sp.toNat - 1 else (s.reg a).toNat
  | .ret => (s.mem.get s.sp.toNat).toNat
  | .jmp a => (s.reg a).toNat
  | .jeq a => if s.equalFlag then (s.reg a).toNat else s.pc + 2
  | .jne a => if s.equalFlag then s.pc + 2 else (s.reg a).toNat

/-- The invariant of reachable states (10_state.md rule R34) under any parameters, with the canonical form of memory and
what a recorded fault says (60_exceptions.md rules R202, R206; 40_dispatch_loop.md rule R89). -/
structure State.InvWith (p : Params) (s : State) : Prop where
  memCanonical : s.mem.wf = true
  general : ∀ i, i ≠ Config.spIndex → (s.reg i).toNat ≤ 255
  stackPointer : s.sp.toNat ≤ 256
  programCounter : s.pc ≤ 256
  flagValues : s.fl ∈ [0, bitByte p.flagLayout.e, bitByte p.flagLayout.g, bitByte p.flagLayout.l]
  outputValues : ∀ v ∈ s.output, v.toNat ≤ 256
  faultRecord : ∀ r, s.fault = some r →
    s.running = true ∧ r.kind ≠ .imageTooLarge ∧ r.code = r.kind.code ∧ r.pc = s.pc ∧ r.opcode = s.memRead s.pc

/-- The invariant of reachable states of this hardware. -/
abbrev State.Inv (s : State) : Prop := s.InvWith Config.params

/-- The states that construction, steps and host moves reach (70_reset_and_hazards.md rules R230, R234). During a run every
host move is refused, so it changes nothing there. -/
inductive Reachable : State → Prop where
  | reset : Reachable State.reset
  | step {s t : State} : Reachable s → Machine.step s = .next t → Reachable t
  | host {s : State} (op : HostOp) : Reachable s → Reachable (s.hostMove op)

/-- The first register operand byte of 8 or more, `a` before `b`. -/
def State.badOperand (s : State) (op : Op) : Option Byte :=
  ([s.mem.get (s.pc + 1), s.mem.get (s.pc + 2)].take op.format.registerCount).find? (fun f => !f.isRegister)

/-- The fault of the step at `s` under any parameters, if there is one, and the address it records: the first that applies
in the table of 40_dispatch_loop.md rule R85, with the conditions and addresses of 60_exceptions.md rule R200. The push
bound is that of 43_stack_call.md rule R141, `sp - 1 < STACK_FLOOR`. -/
def State.firstFaultWith (p : Params) (s : State) : Option (FaultKind × Nat) :=
  if s.pc > 255 then some (.outOfBoundsAccess, s.pc)
  else
    match p.opcodeMap.lookup (s.mem.get s.pc) with
    | none => some (.illegalOpcode, s.pc)
    | some op =>
      if 2 ≤ op.width ∧ s.pc + 1 > 255 then some (.outOfBoundsAccess, s.pc + 1)
      else if op.width = 3 ∧ s.pc + 2 > 255 then some (.outOfBoundsAccess, s.pc + 2)
      else
        match s.badOperand op with
        | some f => some (.invalidRegister, f.toNat)
        | none =>
          if (op = .push ∨ op = .call) ∧ s.sp.toNat ≤ p.stackFloor then some (.stackOverflow, s.sp.toNat)
          else if (op = .pop ∨ op = .ret) ∧ s.sp.toNat = 256 then some (.stackUnderflow, s.sp.toNat)
          else if op = .call ∧ s.pc + 2 > 255 then some (.outOfBoundsAccess, s.pc + 2)
          else none

/-- The fault of the step at `s` on this hardware, whose stack floor is 0. -/
def State.firstFault (s : State) : Option (FaultKind × Nat) := s.firstFaultWith Config.params

/-- Some steps, none of which executes CMP and none of which faults. -/
inductive StepsWithoutCmp : State → State → Prop where
  | refl (s : State) : StepsWithoutCmp s s
  | step {s t u : State} (i : Instr) : s.fetchDecode = .ok i → i.op ≠ .cmp → Machine.step s = .next t →
      StepsWithoutCmp t u → StepsWithoutCmp s u

/-- A normal end: the core does not run and no fault is recorded (40_dispatch_loop.md rule R89). -/
def State.halted (s : State) : Prop := s.running = false ∧ s.fault = none

end Sys2Proof.Machine
end

