-- ==== Sys2Proof/Certificates/Slice0/Obligations.lean ====
section
/-! DEFINITION. The statements about the CORE. Where a statement rests on a decision that the spec marks as its own
(D1 to D22 of 92_eei_decisions.md) or on an entry of the assumption log, its docstring says so. -/

open Sys2Proof Sys2Proof.Machine

/-! ### Encoding -/

/-- Words written out from the opcode table, numbered as it numbers them. The byte values other than LDI's, PRN's and
HLT's are the spec's decision D3 (log entry 1); that an operand byte of 8 is refused is decision D5 (log entry 4). -/
def Obligations.SpecWordsDecode : Prop :=
  decodeTableWord 24 0x080082 = some (.ldi 0 8) ∧ decodeTableWord 16 0x0047 = some (.prn 0) ∧
  decodeTableWord 8 0x01 = some .hlt ∧ decodeTableWord 24 0x0501A0 = some (.add 1 5) ∧
  decodeTableWord 16 0x0746 = some (.pop 7) ∧ decodeTableWord 16 0x0355 = some (.jeq 3) ∧
  decodeTableWord 16 0x0845 = none ∧ decodeTableWord 8 0x00 = none

/-- Under any opcode map that gives no byte to two operations (30_encoding.md rule R65, so that decision D3 is not
assumed), decoding the bytes of an instruction, whatever follows them, gives the instruction. -/
def Obligations.DecodeReadsBackEncode : Prop :=
  ∀ m : OpcodeMap, m.wf = true → ∀ (i : Instr) (rest : List Byte),
    decodeWith m (fun k => (encodeWith m i ++ rest)[k]?) = .ok i

/-- Under any opcode map, what decodes to an instruction is the encoding of that instruction, on every byte of its width:
no operand bit is ignored (30_encoding.md rules R63, R64, R68). -/
def Obligations.DecodeAcceptsOnlyEncodings : Prop :=
  ∀ (m : OpcodeMap) (read : Reader) (i : Instr), decodeWith m read = .ok i →
    ∀ k, k < i.width → read k = (encodeWith m i)[k]?

/-- A byte outside the opcode map faults `IllegalOpcode` with no effect (30_encoding.md rule R66); which bytes those are
rests on decision D3 (log entry 1), what else the step keeps on decision D9. There are 243 of them, 0x00 among them. -/
def Obligations.ByteOutsideMapIsIllegal : Prop :=
  (∀ (s : State) (b : Byte), s.enabled = true → s.memRead s.pc = some b → (∀ op, Config.opcodeMap op ≠ b) →
    step s = .next (s.withFault .illegalOpcode s.pc)) ∧
  ((List.range 256).filter fun n => (Config.opcodeMap.lookup (BitVec.ofNat 8 n)).isNone).length = 243 ∧
  Config.opcodeMap.lookup 0 = none

/-- An operation's operand bytes decide its step (30_encoding.md rules R63, R64, R68): the first register operand of 8 or
more raises `InvalidRegister` with that byte (decision D5, log entry 4), and well-formed operand bytes run the
instruction that has exactly those bytes. -/
def Obligations.OperandBytesDecideTheStep : Prop :=
  ∀ (s : State) (op : Op) (bs : List Byte), s.enabled = true → s.memRead s.pc = some (Config.opcodeMap op) →
    bs.length = op.operandCount → (∀ k, k < bs.length → s.memRead (s.pc + 1 + k) = bs[k]?) →
    (∀ f, (bs.take op.format.registerCount).find? (fun b => !b.isRegister) = some f →
      step s = .next (s.withFault .invalidRegister f.toNat)) ∧
    (op.operandsWf bs = true → ∃ i : Instr, i.op = op ∧ i.operandBytes = bs ∧ step s = exec i s)

/-! ### The step -/

/-- When the bytes at the program counter are those of an instruction, an enabled step decodes that instruction and is
`exec` of it, with nothing added (40_dispatch_loop.md rule R81); the same when they decode to it. -/
def Obligations.StepRunsTheDecodedInstruction : Prop :=
  ∀ (s : State) (i : Instr), s.enabled = true →
    ((∀ k, k < i.width → s.memRead (s.pc + k) = (encode i)[k]?) → s.fetchDecode = .ok i ∧ step s = exec i s) ∧
    (s.fetchDecode = .ok i → step s = exec i s)

/-- The loop never advances the program counter (40_dispatch_loop.md rule R82): a step that faults leaves it, and any
other step sets it to `pc + width` or to the target its instruction's rule gives (table of rule R90). -/
def Obligations.ProgramCounterIsSetByTheInstruction : Prop :=
  ∀ s t : State, step s = .next t →
    (t.fault ≠ none → t.pc = s.pc) ∧
    (t.fault = none → ∃ i : Instr, s.fetchDecode = .ok i ∧ exec i s = .next t ∧ t.pc = Instr.pcAfter i s)

/-- In every state that meets the invariant, an enabled step raises the first fault that applies in the table of
40_dispatch_loop.md rule R85, and records it as 60_exceptions.md rules R200 and R202 say; if none applies it completes
without a fault. The order is the spec's decision D10, the records are decision D11. -/
def Obligations.StepFaultsByTheTable : Prop :=
  ∀ s : State, s.Inv → s.enabled = true →
    match s.firstFault with
    | some (k, a) => step s = .next (s.withFault k a)
    | none => ∃ t, step s = .next t ∧ t.fault = none

/-- A step that faults changes nothing but the fault record (40_dispatch_loop.md rule R84, decision D9), and the record
holds the kind, its code, the program counter and the byte there (60_exceptions.md rule R202, decision D11);
`ImageTooLarge` is never recorded (R206). -/
def Obligations.FaultsArePrecise : Prop :=
  ∀ (s t : State) (r : FaultRecord), step s = .next t → t.fault = some r →
    t = { s with fault := some r } ∧ r.kind ≠ .imageTooLarge ∧ r.code = r.kind.code ∧ r.pc = s.pc ∧
    r.opcode = s.memRead s.pc

/-- A step is enabled only when `running` is true and no fault is recorded; a step that does not fault executes exactly
the one instruction it decodes; `run()` makes the step enabled, and among steps exactly HLT and a fault make it disabled
(40_dispatch_loop.md rule R80). -/
def Obligations.StepsHappenOnlyWhenEnabled : Prop :=
  ∀ s : State,
    (∀ t, step s = .next t → s.running = true ∧ s.fault = none ∧
      (t.fault = none → ∃ i : Instr, s.fetchDecode = .ok i ∧ exec i s = .next t) ∧
      (t.enabled = false ↔ s.fetchDecode = .ok .hlt ∨ t.fault ≠ none)) ∧
    (∀ u, s.runEntry = some u → u.enabled = true)

/-- Where no step is enabled: after a fault the record is reported, and `run()` and `loadImage` are refused until
`reset()` clears it (60_exceptions.md rule R205, decision D12); after HLT the core waits for `run()`, which resumes at the
present `pc` (R213). That such a step stops under these names is the model's choice (log entry 12). -/
def Obligations.StoppedCoreWaitsForTheHost : Prop :=
  ∀ s : State,
    (s.halted → step s = .refused .notRunning ∧ s.resetEntry = some s.hostReset ∧
      ∃ u, s.runEntry = some u ∧ u.enabled = true ∧ u.pc = s.pc) ∧
    (∀ r, s.fault = some r → step s = .fault (.recorded r) ∧ s.runEntry = none ∧
      (∀ bs start, s.loadImage bs start = .refused) ∧ s.resetEntry = some s.hostReset ∧ s.hostReset.fault = none ∧ s.hostReset.runEntry ≠ none)

/-! ### Invariants -/

/-- The invariant of 10_state.md rule R34 holds after reset. -/
def Obligations.ResetMeetsTheInvariant : Prop := State.reset.Inv

/-- Every step keeps the invariant of 10_state.md rule R34: memory in canonical form, registers 0..6 bytes, the stack
pointer and the program counter 0..256, FL one of its four values, the fault record that of the present state. -/
def Obligations.StepKeepsTheInvariant : Prop :=
  ∀ s t : State, s.Inv → step s = .next t → t.Inv

/-- Every state that construction, steps and host moves reach meets the invariant (10_state.md rule R34). -/
def Obligations.ReachableStatesMeetTheInvariant : Prop :=
  ∀ s : State, Reachable s → s.Inv

/-- Every host move, from any state that meets the invariant of 10_state.md rule R34 under any parameters, reached or not,
leaves a state that meets it (70_reset_and_hazards.md rules R231 to R234): `reset()`, `loadImage` of any bytes at any
address, and the entry of `run()`, admitted, rejected or refused. -/
def Obligations.HostMovesKeepTheInvariant : Prop :=
  ∀ (p : Params) (s : State) (op : HostOp), s.InvWith p → (s.hostMove op).InvWith p

/-- In a step, the stack pointer comes to 256 only by a RET or a POP of another register at 255, or by a POP R7 of the
byte 255 (10_state.md rule R34). -/
def Obligations.StackEmptiesOnlyByPopOrRet : Prop :=
  ∀ s t : State, s.Inv → step s = .next t → s.sp.toNat ≠ 256 → t.sp.toNat = 256 →
    (s.sp.toNat = 255 ∧ (s.fetchDecode = .ok .ret ∨ ∃ a, a ≠ Config.spIndex ∧ s.fetchDecode = .ok (.pop a))) ∨
    (s.fetchDecode = .ok (.pop Config.spIndex) ∧ s.memRead s.sp.toNat = some 255)

/-! ### Who writes what -/

/-- FL persists (42_alu.md rule R125): no step but that of a CMP writes it, nor `run()`, nor `loadImage`; `reset()`
writes 0. -/
def Obligations.FlagsPersistUntilCmpOrReset : Prop :=
  ∀ s : State,
    (∀ t, step s = .next t → (∀ a b, s.fetchDecode ≠ .ok (.cmp a b)) → t.fl = s.fl) ∧
    (∀ t, s.runEntry = some t → t.fl = s.fl) ∧
    (∀ bs start t, s.loadImage bs start = .ok t → t.fl = s.fl) ∧
    s.hostReset.fl = 0

/-- A JEQ after a CMP, with no CMP between, is taken exactly when that CMP found its values equal, and a JNE exactly when
it found them unequal (44_jumps.md rule R174). -/
def Obligations.JumpsFollowTheLastCmp : Prop :=
  ∀ (s t u : State) (a b : RegIdx), s.fetchDecode = .ok (.cmp a b) → step s = .next t → StepsWithoutCmp t u →
    u.enabled = true → ∀ c : RegIdx,
    (u.fetchDecode = .ok (.jeq c) → ∃ v, step u = .next v ∧
      v.pc = if (s.reg a).toNat = (s.reg b).toNat then (u.reg c).toNat else u.pc + 2) ∧
    (u.fetchDecode = .ok (.jne c) → ∃ v, step u = .next v ∧
      v.pc = if (s.reg a).toNat = (s.reg b).toNat then u.pc + 2 else (u.reg c).toNat)

/-- Every access is bounded: inside 0..255 a write is read back at its address and nowhere else and changes nothing but
memory; from 256 on, reads and writes raise `OutOfBoundsAccess` with their address (20_memory.md rules R41, R43). -/
def Obligations.MemoryAccessesAreBounded : Prop :=
  ∀ (s : State) (a : Nat),
    (a ≤ 255 → (∀ go, s.load a go = go (s.mem.get a)) ∧ s.memRead a = some (s.mem.get a) ∧
      ∀ v, ∃ t, s.memWrite a v = some t ∧ t.memRead a = some v ∧ s.sameMemBut t [a] ∧ t = { s with mem := t.mem }) ∧
    (256 ≤ a → s.memRead a = none ∧ (∀ go, s.load a go = .next (s.withFault .outOfBoundsAccess a)) ∧
      ∀ (v : Byte) (start : State) (go : State → Result), s.memWrite a v = none ∧
        start.store s a v go = .next (start.withFault .outOfBoundsAccess a))

/-- In a step only PUSH and CALL write memory, and only the byte below the stack pointer (20_memory.md rules R42, R44). -/
def Obligations.OnlyPushAndCallWriteMemory : Prop :=
  ∀ (s t : State) (addr : Nat), step s = .next t → t.memRead addr ≠ s.memRead addr →
    ∃ a, (s.fetchDecode = .ok (.push a) ∨ s.fetchDecode = .ok (.call a)) ∧ addr = (spDown s.sp).toNat

/-- The writers of each register in a step, exhaustively (10_state.md rule R24). -/
def Obligations.RegisterWritersAreExhaustive : Prop :=
  ∀ (s t : State) (i : RegIdx), step s = .next t → t.reg i ≠ s.reg i →
    (∃ imm, s.fetchDecode = .ok (.ldi i imm)) ∨ (∃ b, s.fetchDecode = .ok (.add i b)) ∨
    (∃ b, s.fetchDecode = .ok (.mul i b)) ∨ s.fetchDecode = .ok (.pop i) ∨
    (i = Config.spIndex ∧ (s.fetchDecode = .ok .ret ∨
      ∃ a, s.fetchDecode = .ok (.pop a) ∨ s.fetchDecode = .ok (.push a) ∨ s.fetchDecode = .ok (.call a)))

/-- The running flag (10_state.md rule R30): `run()` sets it, HLT and `reset()` clear it, a fault does not change it but
records itself. -/
def Obligations.RunningFlagWriters : Prop :=
  ∀ s : State,
    (∀ t, step s = .next t → (t.running = false ↔ s.fetchDecode = .ok .hlt) ∧
      (∀ r, t.fault = some r → t.running = s.running)) ∧
    (∀ t, s.runEntry = some t → t.running = true) ∧ s.hostReset.running = false

/-- The observer output is append-only, grows by one value in a PRN alone, and is never read by the core (10_state.md rule
R32, decision D18): with any other output the step is the same but for what is appended to. -/
def Obligations.OutputIsAppendedAndNeverRead : Prop :=
  ∀ s t : State, step s = .next t → ∃ tail, t.output = s.output ++ tail ∧
    (tail = [] ∨ ∃ a, s.fetchDecode = .ok (.prn a) ∧ tail = [s.reg a]) ∧
    ∀ o, step { s with output := o } = .next { t with output := o ++ tail }

/-- Of FL only the E bit matters to a step (10_state.md rule R28, decision D4): with another FL of the same E bit the step
is the same but for FL, and the E bits agree again. -/
def Obligations.OnlyTheEqualBitMatters : Prop :=
  ∀ (s t : State) (f : Byte), step s = .next t → f.getLsbD Config.flagLayout.e = s.equalFlag →
    ∃ g, step { s with fl := f } = .next { t with fl := g } ∧ g.getLsbD Config.flagLayout.e = t.equalFlag

/-! ### The instructions: what each computes and what it keeps -/

/-- LDI (41_load_print_halt.md rule R100). -/
def Obligations.LdiLoadsItsImmediate : Prop :=
  ∀ (s : State) (a : RegIdx) (imm : Byte), ∃ t, exec (.ldi a imm) s = .next t ∧
    (t.reg a).toNat = imm.toNat ∧ t.pc = s.pc + 3 ∧
    s.sameRegsBut t [a] ∧ s.sameMemBut t [] ∧ s.sameControl t

/-- The immediate of LDI is the whole operand byte, unsigned, and LDI alone has one (30_encoding.md rule R64): the step at
the bytes 0x82, a register's byte, `b` loads `b`. -/
def Obligations.LdiImmediateIsTheWholeByte : Prop :=
  (∀ (s : State) (a : RegIdx) (b : Byte), s.enabled = true → s.memRead s.pc = some 0x82 →
    s.memRead (s.pc + 1) = some (registerByte a) → s.memRead (s.pc + 2) = some b →
    ∃ t, step s = .next t ∧ (t.reg a).toNat = b.toNat) ∧
  (∀ op : Op, op.format.operandCount ≠ op.format.registerCount ↔ op = .ldi)

/-- PRN (41_load_print_halt.md rule R101); that the sink never fails is decision D18 (log entry 10). -/
def Obligations.PrnEmitsTheRegister : Prop :=
  ∀ (s : State) (a : RegIdx), ∃ t, exec (.prn a) s = .next t ∧
    t.output = s.output ++ [s.reg a] ∧ t.pc = s.pc + 2 ∧
    s.sameRegsBut t [] ∧ s.sameMemBut t [] ∧ t.fl = s.fl ∧ t.running = s.running ∧ t.fault = s.fault

/-- HLT (41_load_print_halt.md rule R102), with its encoding and its one fault: it ends the run normally, the program
counter is left past it, and past address 255 a later `run()` faults at its first fetch. -/
def Obligations.HltEndsTheRun : Prop :=
  encode .hlt = [0x01] ∧
  (∀ s : State, ∃ t, exec .hlt s = .next t ∧ t.running = false ∧ t.pc = s.pc + 1 ∧
    s.sameRegsBut t [] ∧ s.sameMemBut t [] ∧ t.fl = s.fl ∧ t.fault = s.fault ∧ t.output = s.output) ∧
  (∀ s : State, s.enabled = true → s.memRead s.pc = some 0x01 → ∃ t, exec .hlt s = .next t ∧ step s = .next t ∧
    (∀ fuel, runLoop (fuel + 1) s = .halted t) ∧
    (s.pc = 255 → ∃ u, t.runEntry = some u ∧ step u = .next (u.withFault .outOfBoundsAccess 256))) ∧
  (∀ s : State, s.enabled = true → 256 ≤ s.pc → step s = .next (s.withFault .outOfBoundsAccess s.pc))

/-- ADD (42_alu.md rule R121): the sum modulo 256, no flag written, no fault. -/
def Obligations.AddWrapsModulo256 : Prop :=
  ∀ (s : State) (a b : RegIdx), ∃ t, exec (.add a b) s = .next t ∧
    (t.reg a).toNat = ((s.reg a).toNat + (s.reg b).toNat) % 256 ∧ t.pc = s.pc + 3 ∧
    s.sameRegsBut t [a] ∧ s.sameMemBut t [] ∧ s.sameControl t

/-- MUL (42_alu.md rule R122): the product modulo 256, no flag written, no fault. -/
def Obligations.MulWrapsModulo256 : Prop :=
  ∀ (s : State) (a b : RegIdx), ∃ t, exec (.mul a b) s = .next t ∧
    (t.reg a).toNat = (s.reg a).toNat * (s.reg b).toNat % 256 ∧ t.pc = s.pc + 3 ∧
    s.sameRegsBut t [a] ∧ s.sameMemBut t [] ∧ s.sameControl t

/-- CMP (42_alu.md rules R123, R124): of all bits of FL, E is set exactly for equal, G for greater, L for less. Where the
three bits lie is decision D4 (log entry 2). -/
def Obligations.CmpSetsExactlyOneFlag : Prop :=
  ∀ (s : State) (a b : RegIdx), ∃ t, exec (.cmp a b) s = .next t ∧
    (∀ k, t.fl.getLsbD k = true ↔
      (k = Config.flagLayout.e ∧ (s.reg a).toNat = (s.reg b).toNat) ∨
      (k = Config.flagLayout.g ∧ (s.reg a).toNat > (s.reg b).toNat) ∨
      (k = Config.flagLayout.l ∧ (s.reg a).toNat < (s.reg b).toNat)) ∧
    t.pc = s.pc + 3 ∧ s.sameRegsBut t [] ∧ s.sameMemBut t [] ∧
    t.running = s.running ∧ t.fault = s.fault ∧ t.output = s.output

/-- PUSH (43_stack_call.md rules R141, R143). With R7 as the operand the decremented stack pointer is written (decision
D8, log entry 8). A stack pointer above 256 and a value above 255 in another register occur in no reachable state, and no
rule gives them meaning (93_implementation_defined.md U16): the refusal of such a value is the model's choice (log entry
6), and so is the last clause, the fault at a stack pointer above 256 (log entry 23, DEDUCED). -/
def Obligations.PushStoresBelowTheStackPointer : Prop :=
  ∀ (s : State) (a : RegIdx),
    (s.sp.toNat = 0 → exec (.push a) s = .next (s.withFault .stackOverflow 0)) ∧
    (0 < s.sp.toNat → s.sp.toNat ≤ 256 → (a ≠ Config.spIndex → (s.reg a).toNat ≤ 255) →
      ∃ t, exec (.push a) s = .next t ∧
        t.sp = spDown s.sp ∧ t.sp.toNat = s.sp.toNat - 1 ∧
        (∃ v, t.memRead (spDown s.sp).toNat = some v ∧
          v.toNat = if a = Config.spIndex then s.sp.toNat - 1 else (s.reg a).toNat) ∧
        t.pc = s.pc + 2 ∧ s.sameRegsBut t [Config.spIndex] ∧ s.sameMemBut t [(spDown s.sp).toNat] ∧
        s.sameControl t) ∧
    (0 < s.sp.toNat → s.sp.toNat ≤ 256 → a ≠ Config.spIndex → 255 < (s.reg a).toNat →
      exec (.push a) s = .refused .valueAboveByte) ∧
    (256 < s.sp.toNat → exec (.push a) s = .next (s.withFault .outOfBoundsAccess (s.sp.toNat - 1)))

/-- POP (43_stack_call.md rules R142, R144). POP R7 leaves the popped byte plus one (decision D8, log entry 8). For a stack
pointer above 256, which occurs in no reachable state, the underflow is the model's choice (log entry 23, DEDUCED). -/
def Obligations.PopLoadsTheTopOfStack : Prop :=
  ∀ (s : State) (a : RegIdx),
    (256 ≤ s.sp.toNat → exec (.pop a) s = .next (s.withFault .stackUnderflow s.sp.toNat)) ∧
    (s.sp.toNat ≤ 255 → ∃ t v, exec (.pop a) s = .next t ∧ s.memRead s.sp.toNat = some v ∧
      (a ≠ Config.spIndex → (t.reg a).toNat = v.toNat ∧ t.sp.toNat = s.sp.toNat + 1) ∧
      (a = Config.spIndex → t.sp.toNat = v.toNat + 1) ∧
      t.pc = s.pc + 2 ∧ s.sameRegsBut t [a, Config.spIndex] ∧ s.sameMemBut t [] ∧ s.sameControl t)

/-- CALL (43_stack_call.md rules R141, R145). That it faults where its return address is no address is decision D7 (log
entry 7), that CALL R7 goes to the decremented stack pointer is decision D8 (log entry 8). A stack pointer above 256 occurs
in no reachable state, and no rule gives it meaning (93_implementation_defined.md U16): what the second and the last clause
say there is the model's choice (log entry 23, DEDUCED). -/
def Obligations.CallPushesTheReturnAddress : Prop :=
  ∀ (s : State) (a : RegIdx),
    (s.sp.toNat = 0 → exec (.call a) s = .next (s.withFault .stackOverflow 0)) ∧
    (0 < s.sp.toNat → 254 ≤ s.pc → exec (.call a) s = .next (s.withFault .outOfBoundsAccess (s.pc + 2))) ∧
    (0 < s.sp.toNat → s.sp.toNat ≤ 256 → s.pc ≤ 253 →
      ∃ t, exec (.call a) s = .next t ∧
        t.sp = spDown s.sp ∧ t.sp.toNat = s.sp.toNat - 1 ∧
        (∃ v, t.memRead (spDown s.sp).toNat = some v ∧ v.toNat = s.pc + 2) ∧
        t.pc = (if a = Config.spIndex then s.sp.toNat - 1 else (s.reg a).toNat) ∧
        s.sameRegsBut t [Config.spIndex] ∧ s.sameMemBut t [(spDown s.sp).toNat] ∧ s.sameControl t) ∧
    (256 < s.sp.toNat → s.pc ≤ 253 →
      exec (.call a) s = .next (s.withFault .outOfBoundsAccess (s.sp.toNat - 1)))

/-- RET (43_stack_call.md rules R142, R146). For a stack pointer above 256, which occurs in no reachable state, the
underflow is the model's choice (log entry 23, DEDUCED). -/
def Obligations.RetPopsTheProgramCounter : Prop :=
  ∀ s : State,
    (256 ≤ s.sp.toNat → exec .ret s = .next (s.withFault .stackUnderflow s.sp.toNat)) ∧
    (s.sp.toNat ≤ 255 → ∃ t v, exec .ret s = .next t ∧ s.memRead s.sp.toNat = some v ∧ t.pc = v.toNat ∧
      t.sp.toNat = s.sp.toNat + 1 ∧ s.sameRegsBut t [Config.spIndex] ∧ s.sameMemBut t [] ∧ s.sameControl t)

/-- JMP (44_jumps.md rules R170, R173): to the register's value, unchecked. -/
def Obligations.JmpGoesToTheRegister : Prop :=
  ∀ (s : State) (a : RegIdx), ∃ t, exec (.jmp a) s = .next t ∧ t.pc = (s.reg a).toNat ∧
    s.sameRegsBut t [] ∧ s.sameMemBut t [] ∧ s.sameControl t

/-- JEQ (44_jumps.md rule R171): FL is read, not modified. -/
def Obligations.JeqJumpsWhenEqual : Prop :=
  ∀ (s : State) (a : RegIdx), ∃ t, exec (.jeq a) s = .next t ∧
    t.pc = (if s.fl.getLsbD Config.flagLayout.e = true then (s.reg a).toNat else s.pc + 2) ∧
    s.sameRegsBut t [] ∧ s.sameMemBut t [] ∧ s.sameControl t

/-- JNE (44_jumps.md rule R172): FL is read, not modified. -/
def Obligations.JneJumpsWhenNotEqual : Prop :=
  ∀ (s : State) (a : RegIdx), ∃ t, exec (.jne a) s = .next t ∧
    t.pc = (if s.fl.getLsbD Config.flagLayout.e = false then (s.reg a).toNat else s.pc + 2) ∧
    s.sameRegsBut t [] ∧ s.sameMemBut t [] ∧ s.sameControl t

/-- PUSH then POP of the same register gives its value back and the stack pointer too, whatever runs between that leaves
the stack pointer and the pushed cell (43_stack_call.md rule R147); R7 included (decision D8). -/
def Obligations.PushThenPopRestores : Prop :=
  ∀ (s : State) (a : RegIdx), 0 < s.sp.toNat → s.sp.toNat ≤ 256 → (a ≠ Config.spIndex → (s.reg a).toNat ≤ 255) →
    ∃ t, exec (.push a) s = .next t ∧ ∀ u : State, u.sp = t.sp → u.memRead t.sp.toNat = t.memRead t.sp.toNat →
      ∃ v, exec (.pop a) u = .next v ∧ v.reg a = s.reg a ∧ v.sp = s.sp

/-- CALL then RET comes back to the instruction after the CALL with the stack pointer restored, whatever runs between
that leaves the stack pointer and the pushed cell (43_stack_call.md rule R147). -/
def Obligations.CallThenRetReturns : Prop :=
  ∀ (s : State) (a : RegIdx), 0 < s.sp.toNat → s.sp.toNat ≤ 256 → s.pc ≤ 253 →
    ∃ t, exec (.call a) s = .next t ∧ ∀ u : State, u.sp = t.sp → u.memRead t.sp.toNat = t.memRead t.sp.toNat →
      ∃ v, exec .ret u = .next v ∧ v.pc = s.pc + 2 ∧ v.sp = s.sp

/-- Under any layout of three different bits (10_state.md rule R28, so that decision D4 is not assumed), the flag function
sets the bit of the ordering found and no other. -/
def Obligations.FlagFunctionUnderAnyLayout : Prop :=
  ∀ l : FlagLayout, l.wf = true → ∀ (va vb : RegVal) (k : Nat),
    ((flagsWith l va vb).getLsbD k = true ↔
      (k = l.e ∧ va.toNat = vb.toNat) ∨ (k = l.g ∧ va.toNat > vb.toNat) ∨ (k = l.l ∧ va.toNat < vb.toNat))

/-! ### The host -/

/-- `reset()` from any state (70_reset_and_hazards.md rule R231; 10_state.md rule R36): every cell and register 0, `pc`
and FL 0, not running; the fault record is cleared (decision D12) and the output kept (decision D18, log entry 10). -/
def Obligations.ResetZeroesEverythingButOutput : Prop :=
  ∀ s : State, (∀ a, a < 256 → s.hostReset.memRead a = some 0) ∧ (∀ i, s.hostReset.reg i = 0) ∧
    s.hostReset.pc = 0 ∧ s.hostReset.fl = 0 ∧ s.hostReset.running = false ∧ s.hostReset.fault = none ∧
    s.hostReset.output = s.output ∧ ({ s.hostReset with output := [] } : State) = State.reset

/-- The host acts only between runs (70_reset_and_hazards.md rule R234, decision D21): during a run every move is refused and
changes nothing; outside a run `reset()` is admitted, with its effect, and `loadImage` and `run()` are admitted exactly
when no fault is recorded. -/
def Obligations.HostActsOnlyBetweenRuns : Prop :=
  ∀ s : State,
    (s.enabled = true → s.resetEntry = none ∧ s.runEntry = none ∧ (∀ bs start, s.loadImage bs start = .refused) ∧
      ∀ op, s.hostMove op = s) ∧
    (s.enabled = false → s.resetEntry = some s.hostReset ∧ s.hostMove .reset = s.hostReset ∧
      (s.fault = none → s.runEntry = some (s.hostMove .run) ∧ (s.hostMove .run).enabled = true ∧
        ∀ bs start, s.loadImage bs start ≠ .refused) ∧
      (s.fault ≠ none → s.runEntry = none ∧ ∀ bs start, s.loadImage bs start = .refused))

/-- `loadImage` (70_reset_and_hazards.md rule R232, decisions D12, D17): refused during a run or after a fault;
`ImageTooLarge` past the capacity; otherwise the bytes are in memory and nothing else has changed. -/
def Obligations.LoadImageCopiesTheBytes : Prop :=
  ∀ (s : State) (bs : List Byte) (start : Nat),
    (s.running = true ∨ s.fault ≠ none → s.loadImage bs start = .refused) ∧
    (s.halted → 256 < start + bs.length → s.loadImage bs start = .imageTooLarge (start + bs.length)) ∧
    (s.halted → start + bs.length ≤ 256 → ∃ t, s.loadImage bs start = .ok t ∧
      (∀ k, k < bs.length → t.memRead (start + k) = bs[k]?) ∧
      (∀ a, a < start ∨ start + bs.length ≤ a → t.memRead a = s.memRead a) ∧ t = { s with mem := t.mem })

/-- The entry of `run()` (70_reset_and_hazards.md rule R233, decisions D12, D16): `running` true, the stack pointer 256,
all else kept. -/
def Obligations.RunEntrySetsRunningAndStackPointer : Prop :=
  ∀ s : State, s.halted → ∃ t, s.runEntry = some t ∧ t.enabled = true ∧ t.sp.toNat = 256 ∧
    s.sameRegsBut t [Config.spIndex] ∧ s.sameMemBut t [] ∧ t.pc = s.pc ∧ t.fl = s.fl ∧ t.output = s.output

/-- A run from a state that meets the invariant ends HALTED, ends FAULTED with `running` still true, or has not ended when
its fuel is spent; the model refuses no step of it (40_dispatch_loop.md rule R89, decision D12). -/
def Obligations.RunsEndHaltedOrFaulted : Prop :=
  ∀ (fuel : Nat) (s : State), s.Inv →
    match runLoop fuel s with
    | .halted t => t.halted
    | .faulted r t => t.fault = some r ∧ t.running = true
    | .unfinished t => t.enabled = true
    | .refused _ _ => False

/-- More fuel does not change how a run ended (40_dispatch_loop.md rule R86: the step is deterministic). -/
def Obligations.EndedRunsIgnoreMoreFuel : Prop :=
  ∀ (fuel more : Nat) (s : State), (∀ t, runLoop fuel s ≠ .unfinished t) → runLoop (fuel + more) s = runLoop fuel s

/-- Boot (70_reset_and_hazards.md rule R235): after reset, loading an image at 0 and `run()`, the first step runs the
image's first instruction, at address 0, with an empty stack. -/
def Obligations.BootRunsTheFirstInstruction : Prop :=
  ∀ (i : Instr) (rest : List Byte), (encode i ++ rest).length ≤ 256 →
    ∃ t u, State.reset.loadImage (encode i ++ rest) = .ok t ∧ t.runEntry = some u ∧ u.pc = 0 ∧ u.sp.toNat = 256 ∧
      step u = exec i u

/-- The model's own way to put one instruction before the next step (log entry 11): it is that step, in any state whose
program counter leaves room for it. -/
def Obligations.FetchWordIsTheNextStep : Prop :=
  ∀ (s : State) (nbits w : Nat) (i : Instr), decodeTableWord nbits w = some i → i.fitsAt s.pc = true →
    (s.withFetchWord nbits w).enabled = true ∧
    step (s.withFetchWord nbits w) = exec i (s.withFetchWord nbits w)

/-- Memories in canonical form that read alike are equal data: the form the model chose (log entry 13) has one datum for
each content of the 256 cells (10_state.md rule R20). -/
def Obligations.MemoriesThatReadAlikeAreEqual : Prop :=
  ∀ m m' : Memory, m.wf = true → m'.wf = true → (∀ a, m.get a = m'.get a) → m = m'

/-! ### The starred parameters of 00_scope.md rule R6 -/

/-- The dispatch, the step and the run of this hardware are the configured ones at the defaults of rule R6 (decisions D3,
D4, D6; log entries 1 to 3). -/
def Obligations.StepIsTheConfiguredStepAtTheDefaults : Prop :=
  (∀ op, Config.params.opcodeMap op = Config.opcodeMap op) ∧ Config.params.flagLayout = ⟨0, 1, 2⟩ ∧
  Config.params.stackFloor = 0 ∧ Config.params.wf = true ∧
  ∀ s : State, (∀ i, exec i s = execWith Config.params i s) ∧ step s = stepWith Config.params s ∧
    ∀ fuel, runLoop fuel s = runLoopWith Config.params fuel s

/-- Under any opcode map that gives no byte to two operations, an enabled step at the bytes of an instruction decodes it and
is the configured dispatch of it; of the thirteen instructions only PUSH and CALL read the stack floor and only CMP, JEQ
and JNE read the flag layout (40_dispatch_loop.md rule R81; decision D3 is not assumed). -/
def Obligations.ConfiguredStepRunsTheDecodedInstruction : Prop :=
  ∀ (p : Params) (s : State) (i : Instr), p.opcodeMap.wf = true → s.enabled = true →
    (∀ k, k < i.width → s.memRead (s.pc + k) = (encodeWith p.opcodeMap i)[k]?) →
    s.fetchDecodeWith p.opcodeMap = .ok i ∧ stepWith p s = execWith p i s ∧
    (i.op ∉ [Op.push, Op.call] → ∀ floor, execWith { p with stackFloor := floor } i s = execWith p i s) ∧
    (i.op ∉ [Op.cmp, Op.jeq, Op.jne] → ∀ l, execWith { p with flagLayout := l } i s = execWith p i s)

/-- The push bound check for every stack floor (43_stack_call.md rule R141; decision D6 is not assumed): PUSH and CALL fault
`StackOverflow` with the stack pointer exactly when `sp - 1 < STACK_FLOOR`, and are otherwise as with no reserved region, so
that no PUSH and no CALL writes below the floor. -/
def Obligations.PushAndCallRespectAnyStackFloor : Prop :=
  ∀ (p : Params) (s : State) (i : Instr), i.op = .push ∨ i.op = .call →
    ((s.sp.toNat : Int) - 1 < p.stackFloor → execWith p i s = .next (s.withFault .stackOverflow s.sp.toNat)) ∧
    ((p.stackFloor : Int) ≤ s.sp.toNat - 1 → execWith p i s = exec i s) ∧
    ∀ (t : State) (addr : Nat), execWith p i s = .next t → addr < p.stackFloor → t.memRead addr = s.memRead addr

/-- The fault table of 40_dispatch_loop.md rule R85 under any parameters, its row 6 by the bound of 43_stack_call.md rule
R141: so neither decision D3 nor D6 is assumed. The order is decision D10, the records are decision D11. -/
def Obligations.ConfiguredStepFaultsByTheTable : Prop :=
  ∀ (p : Params) (s : State), s.InvWith p → s.enabled = true →
    match s.firstFaultWith p with
    | some (k, a) => stepWith p s = .next (s.withFault k a)
    | none => ∃ t, stepWith p s = .next t ∧ t.fault = none

/-- Under any parameters every step keeps the invariant of 10_state.md rule R34, FL being one of the four values of the
layout: so none of decisions D3, D4 and D6 is assumed. -/
def Obligations.ConfiguredStepKeepsTheInvariant : Prop :=
  ∀ (p : Params) (s t : State), s.InvWith p → stepWith p s = .next t → t.InvWith p

/-- Where the three flags lie decides nothing but the number FL holds (92_eei_decisions.md D4, which is not assumed): under
another layout, from a state that differs in FL alone and holds the same E, a step gives a state that differs in FL alone
and holds the same E. -/
def Obligations.FlagPositionsDecideNothingButFl : Prop :=
  ∀ (p : Params) (l : FlagLayout) (s t : State) (f : Byte), p.flagLayout.wf = true → l.wf = true →
    f.getLsbD l.e = s.equalFlagWith p.flagLayout → stepWith p s = .next t →
    ∃ g, stepWith { p with flagLayout := l } { s with fl := f } = .next { t with fl := g } ∧
      g.getLsbD l.e = t.equalFlagWith p.flagLayout
end

