-- ==== Sys2Proof/Laws/Decode.lean ====
section
/-! SUPPORT. What the opcode map, the byte readers and each format's decoder can answer. -/

namespace Sys2Proof

/-! ### The opcode map -/

theorem Op.mem_all (op : Op) : op ∈ Op.all := by cases op <;> decide

theorem Config.opcodeMap_wf : OpcodeMap.wf Config.opcodeMap = true := by decide

/-- A well-formed map gives no byte to two operations. -/
theorem OpcodeMap.wf_inj {m : OpcodeMap} (hm : m.wf = true) {op op' : Op} (h : m op = m op') : op = op' := by
  have hn : (Op.all.map m).Nodup := by simpa [OpcodeMap.wf] using hm
  exact List.inj_on_of_nodup_map hn (Op.mem_all op) (Op.mem_all op') h

/-- A byte that stands for an operation is the byte of that operation. -/
theorem OpcodeMap.lookup_some {m : OpcodeMap} {b : Byte} {op : Op} (h : m.lookup b = some op) : m op = b := by
  simpa using List.find?_some h

/-- Under a well-formed map the byte of an operation stands for it. -/
theorem OpcodeMap.lookup_map {m : OpcodeMap} (hm : m.wf = true) (op : Op) : m.lookup (m op) = some op := by
  cases h : m.lookup (m op) with
  | none => exact absurd (List.find?_eq_none.1 h op (Op.mem_all op)) (by simp)
  | some op' => rw [m.wf_inj hm (OpcodeMap.lookup_some h)]

theorem OpcodeMap.lookup_none {m : OpcodeMap} {b : Byte} : m.lookup b = none ↔ ∀ op, m op ≠ b := by
  refine List.find?_eq_none.trans ⟨fun h op => ?_, fun h op _ => ?_⟩
  · simpa using h op (Op.mem_all op)
  · simpa using h op

/-! ### Bytes and register operands -/

theorem fetchByte_some {read : Reader} {k : Nat} {b : Byte} (h : read k = some b) : fetchByte read k = .ok b := by
  simp [fetchByte, h]

theorem fetchByte_none {read : Reader} {k : Nat} (h : read k = none) : fetchByte read k = .error (.missingByte k) := by
  simp [fetchByte, h]

theorem fetchByte_ok {read : Reader} {k : Nat} {b : Byte} : fetchByte read k = .ok b ↔ read k = some b := by
  unfold fetchByte; split <;> simp_all

@[simp] theorem registerByte_toNat (a : RegIdx) : (registerByte a).toNat = a.val := by
  have := a.isLt; simp [registerByte]; omega

@[simp] theorem registerOperand_registerByte (a : RegIdx) : registerOperand (registerByte a) = .ok a := by
  simp [registerOperand]

theorem registerOperand_of_lt {f : Byte} (h : f.toNat < 8) : registerOperand f = .ok ⟨f.toNat, h⟩ := dif_pos h

theorem registerOperand_of_ge {f : Byte} (h : 8 ≤ f.toNat) : registerOperand f = .error (.invalidRegister f) :=
  dif_neg (Nat.not_lt.2 h)

/-- A byte names the register whose byte it is. -/
theorem registerOperand_ok {f : Byte} {a : RegIdx} : registerOperand f = .ok a ↔ f = registerByte a := by
  constructor
  · intro h
    unfold registerOperand at h
    split at h
    · cases h; apply BitVec.eq_of_toNat_eq; simp
    · cases h
  · rintro rfl; simp

/-- A byte that passes the register check is a register's byte. -/
theorem registerByte_of_isRegister {f : Byte} (h : f.isRegister = true) : ∃ a, f = registerByte a :=
  ⟨_, registerOperand_ok.1 (registerOperand_of_lt (of_decide_eq_true h))⟩

@[simp] theorem registerByte_isRegister (a : RegIdx) : (registerByte a).isRegister = true := by
  simp [Byte.isRegister]

theorem registerOperand_of_not_isRegister {f : Byte} (h : f.isRegister = false) :
    registerOperand f = .error (.invalidRegister f) :=
  registerOperand_of_ge (Nat.not_lt.1 (of_decide_eq_false h))

/-! ### Formats -/

theorem decodeR_ok {read : Reader} {c : RegIdx → Instr} {i : Instr} :
    decodeR read c = .ok i ↔ ∃ a, read 1 = some (registerByte a) ∧ i = c a := by
  unfold decodeR
  cases h1 : read 1 with
  | none => simp [fetchByte_none h1, bind, Except.bind]
  | some a =>
    cases hr : registerOperand a with
    | error e =>
      simp only [fetchByte_some h1, bind, Except.bind, hr, reduceCtorEq, Option.some.injEq, false_iff]
      rintro ⟨ra, rfl, -⟩
      simp at hr
    | ok ra =>
      rw [registerOperand_ok] at hr; subst hr
      simp only [fetchByte_some h1, bind, Except.bind, registerOperand_registerByte, pure, Except.pure, Except.ok.injEq,
        Option.some.injEq]
      constructor
      · rintro rfl; exact ⟨ra, rfl, rfl⟩
      · rintro ⟨rb, hb, rfl⟩
        have := congrArg BitVec.toNat hb
        simp only [registerByte_toNat] at this
        rw [Fin.ext this]

theorem decodeRI_ok {read : Reader} {c : RegIdx → Byte → Instr} {i : Instr} :
    decodeRI read c = .ok i ↔ ∃ a b, read 1 = some (registerByte a) ∧ read 2 = some b ∧ i = c a b := by
  unfold decodeRI
  cases h1 : read 1 with
  | none => simp [fetchByte_none h1, bind, Except.bind]
  | some a =>
    cases h2 : read 2 with
    | none => simp [fetchByte_some h1, fetchByte_none h2, bind, Except.bind]
    | some b =>
      have := decodeR_ok (read := fun _ => some a) (c := fun r => c r b) (i := i)
      simp only [decodeR, fetchByte_some (read := fun _ => some a) (k := 1) rfl] at this
      simp only [fetchByte_some h1, fetchByte_some h2, bind, Except.bind, Option.some.injEq] at this ⊢
      rw [this]
      constructor
      · rintro ⟨r, hr, rfl⟩; exact ⟨r, b, hr, rfl, rfl⟩
      · rintro ⟨r, _, hr, rfl, rfl⟩; exact ⟨r, hr, rfl⟩

theorem decodeRR_ok {read : Reader} {c : RegIdx → RegIdx → Instr} {i : Instr} :
    decodeRR read c = .ok i ↔
      ∃ a b, read 1 = some (registerByte a) ∧ read 2 = some (registerByte b) ∧ i = c a b := by
  unfold decodeRR
  cases h1 : read 1 with
  | none => simp [fetchByte_none h1, bind, Except.bind]
  | some a =>
    cases h2 : read 2 with
    | none => simp [fetchByte_some h1, fetchByte_none h2, bind, Except.bind]
    | some b =>
      cases hr : registerOperand a with
      | error e =>
        simp only [fetchByte_some h1, fetchByte_some h2, bind, Except.bind, hr, reduceCtorEq, Option.some.injEq,
          false_iff]
        rintro ⟨ra, _, rfl, -⟩
        simp at hr
      | ok ra =>
        rw [registerOperand_ok] at hr; subst hr
        have := decodeR_ok (read := fun _ => some b) (c := fun r => c ra r) (i := i)
        simp only [decodeR, fetchByte_some (read := fun _ => some b) (k := 1) rfl] at this
        simp only [fetchByte_some h1, fetchByte_some h2, bind, Except.bind, registerOperand_registerByte,
          Option.some.injEq] at this ⊢
        rw [this]
        constructor
        · rintro ⟨r, hr, rfl⟩; exact ⟨ra, r, rfl, hr, rfl⟩
        · rintro ⟨r, r', hr, hr', rfl⟩
          have := congrArg BitVec.toNat hr
          simp only [registerByte_toNat] at this
          exact ⟨r', hr', by rw [Fin.ext this]⟩

/-- A decoded instruction came from an opcode byte that stands for its operation, and the operand decoder. -/
theorem decodeWith_ok {m : OpcodeMap} {read : Reader} {i : Instr} :
    decodeWith m read = .ok i ↔
      ∃ opc op, read 0 = some opc ∧ m.lookup opc = some op ∧ decodeOperands read op = .ok i := by
  unfold decodeWith
  cases h : read 0 with
  | none => simp [fetchByte_none h, bind, Except.bind]
  | some opc =>
    simp only [fetchByte_some h, bind, Except.bind]
    cases hl : m.lookup opc with
    | none => simp [hl]
    | some op => simp [hl]

/-- The operand decoder of an operation yields an instruction of that operation. -/
theorem decodeOperands_op {read : Reader} {op : Op} {i : Instr} (h : decodeOperands read op = .ok i) : i.op = op := by
  cases op <;> simp only [decodeOperands, decodeR_ok, decodeRI_ok, decodeRR_ok, Except.ok.injEq] at h
  case ldi => obtain ⟨_, _, _, _, rfl⟩ := h; rfl
  case hlt => subst h; rfl
  case ret => subst h; rfl
  case mul => obtain ⟨_, _, _, _, rfl⟩ := h; rfl
  case add => obtain ⟨_, _, _, _, rfl⟩ := h; rfl
  case cmp => obtain ⟨_, _, _, _, rfl⟩ := h; rfl
  all_goals obtain ⟨_, _, rfl⟩ := h; rfl

end Sys2Proof
end

