-- ==== Sys2Proof/Laws/State.lean ====
section
/-! SUPPORT. One lemma per field per update of State, true by rfl, and the reads through `reg`, `sp` and `memRead`. -/

namespace Sys2Proof.Machine

variable (s : State)

/-! ### setReg -/

@[simp] theorem State.setReg_mem (i : RegIdx) (v : RegVal) : (s.setReg i v).mem = s.mem := rfl
@[simp] theorem State.setReg_regs (i : RegIdx) (v : RegVal) : (s.setReg i v).regs = s.regs.set i v := rfl
@[simp] theorem State.setReg_pc (i : RegIdx) (v : RegVal) : (s.setReg i v).pc = s.pc := rfl
@[simp] theorem State.setReg_fl (i : RegIdx) (v : RegVal) : (s.setReg i v).fl = s.fl := rfl
@[simp] theorem State.setReg_running (i : RegIdx) (v : RegVal) : (s.setReg i v).running = s.running := rfl
@[simp] theorem State.setReg_fault (i : RegIdx) (v : RegVal) : (s.setReg i v).fault = s.fault := rfl
@[simp] theorem State.setReg_output (i : RegIdx) (v : RegVal) : (s.setReg i v).output = s.output := rfl
@[simp] theorem State.setReg_memRead (i : RegIdx) (v : RegVal) (a : Nat) : (s.setReg i v).memRead a = s.memRead a := rfl

/-! ### setFl -/

@[simp] theorem State.setFl_mem (v : Byte) : (s.setFl v).mem = s.mem := rfl
@[simp] theorem State.setFl_regs (v : Byte) : (s.setFl v).regs = s.regs := rfl
@[simp] theorem State.setFl_pc (v : Byte) : (s.setFl v).pc = s.pc := rfl
@[simp] theorem State.setFl_fl (v : Byte) : (s.setFl v).fl = v := rfl
@[simp] theorem State.setFl_running (v : Byte) : (s.setFl v).running = s.running := rfl
@[simp] theorem State.setFl_fault (v : Byte) : (s.setFl v).fault = s.fault := rfl
@[simp] theorem State.setFl_output (v : Byte) : (s.setFl v).output = s.output := rfl
@[simp] theorem State.setFl_reg (v : Byte) (j : RegIdx) : (s.setFl v).reg j = s.reg j := rfl
@[simp] theorem State.setFl_sp (v : Byte) : (s.setFl v).sp = s.sp := rfl
@[simp] theorem State.setFl_memRead (v : Byte) (a : Nat) : (s.setFl v).memRead a = s.memRead a := rfl

/-! ### setRunning -/

@[simp] theorem State.setRunning_mem (b : Bool) : (s.setRunning b).mem = s.mem := rfl
@[simp] theorem State.setRunning_regs (b : Bool) : (s.setRunning b).regs = s.regs := rfl
@[simp] theorem State.setRunning_pc (b : Bool) : (s.setRunning b).pc = s.pc := rfl
@[simp] theorem State.setRunning_fl (b : Bool) : (s.setRunning b).fl = s.fl := rfl
@[simp] theorem State.setRunning_running (b : Bool) : (s.setRunning b).running = b := rfl
@[simp] theorem State.setRunning_fault (b : Bool) : (s.setRunning b).fault = s.fault := rfl
@[simp] theorem State.setRunning_output (b : Bool) : (s.setRunning b).output = s.output := rfl
@[simp] theorem State.setRunning_reg (b : Bool) (j : RegIdx) : (s.setRunning b).reg j = s.reg j := rfl
@[simp] theorem State.setRunning_sp (b : Bool) : (s.setRunning b).sp = s.sp := rfl
@[simp] theorem State.setRunning_memRead (b : Bool) (a : Nat) : (s.setRunning b).memRead a = s.memRead a := rfl

/-! ### emit -/

@[simp] theorem State.emit_mem (v : RegVal) : (s.emit v).mem = s.mem := rfl
@[simp] theorem State.emit_regs (v : RegVal) : (s.emit v).regs = s.regs := rfl
@[simp] theorem State.emit_pc (v : RegVal) : (s.emit v).pc = s.pc := rfl
@[simp] theorem State.emit_fl (v : RegVal) : (s.emit v).fl = s.fl := rfl
@[simp] theorem State.emit_running (v : RegVal) : (s.emit v).running = s.running := rfl
@[simp] theorem State.emit_fault (v : RegVal) : (s.emit v).fault = s.fault := rfl
@[simp] theorem State.emit_output (v : RegVal) : (s.emit v).output = s.output ++ [v] := rfl
@[simp] theorem State.emit_reg (v : RegVal) (j : RegIdx) : (s.emit v).reg j = s.reg j := rfl
@[simp] theorem State.emit_sp (v : RegVal) : (s.emit v).sp = s.sp := rfl
@[simp] theorem State.emit_memRead (v : RegVal) (a : Nat) : (s.emit v).memRead a = s.memRead a := rfl

/-! ### withFault -/

@[simp] theorem State.withFault_mem (k : FaultKind) (n : Nat) : (s.withFault k n).mem = s.mem := rfl
@[simp] theorem State.withFault_regs (k : FaultKind) (n : Nat) : (s.withFault k n).regs = s.regs := rfl
@[simp] theorem State.withFault_pc (k : FaultKind) (n : Nat) : (s.withFault k n).pc = s.pc := rfl
@[simp] theorem State.withFault_fl (k : FaultKind) (n : Nat) : (s.withFault k n).fl = s.fl := rfl
@[simp] theorem State.withFault_running (k : FaultKind) (n : Nat) : (s.withFault k n).running = s.running := rfl
@[simp] theorem State.withFault_fault (k : FaultKind) (n : Nat) : (s.withFault k n).fault = some (s.record k n) := rfl
@[simp] theorem State.withFault_output (k : FaultKind) (n : Nat) : (s.withFault k n).output = s.output := rfl
@[simp] theorem State.withFault_reg (k : FaultKind) (n : Nat) (j : RegIdx) : (s.withFault k n).reg j = s.reg j := rfl
@[simp] theorem State.withFault_sp (k : FaultKind) (n : Nat) : (s.withFault k n).sp = s.sp := rfl
@[simp] theorem State.withFault_memRead (k : FaultKind) (n : Nat) (a : Nat) : (s.withFault k n).memRead a = s.memRead a := rfl

/-! ### sequence -/

@[simp] theorem State.sequence_mem (n : NextPc) : (s.sequence n).mem = s.mem := by cases n <;> rfl
@[simp] theorem State.sequence_regs (n : NextPc) : (s.sequence n).regs = s.regs := by cases n <;> rfl
@[simp] theorem State.sequence_seq_pc (w : Nat) : (s.sequence (.seq w)).pc = s.pc + w := rfl
@[simp] theorem State.sequence_target_pc (v : Nat) : (s.sequence (.target v)).pc = v := rfl
@[simp] theorem State.sequence_hold : s.sequence .hold = s := rfl
@[simp] theorem State.sequence_fl (n : NextPc) : (s.sequence n).fl = s.fl := by cases n <;> rfl
@[simp] theorem State.sequence_running (n : NextPc) : (s.sequence n).running = s.running := by cases n <;> rfl
@[simp] theorem State.sequence_fault (n : NextPc) : (s.sequence n).fault = s.fault := by cases n <;> rfl
@[simp] theorem State.sequence_output (n : NextPc) : (s.sequence n).output = s.output := by cases n <;> rfl
@[simp] theorem State.sequence_reg (n : NextPc) (j : RegIdx) : (s.sequence n).reg j = s.reg j := by cases n <;> rfl
@[simp] theorem State.sequence_sp (n : NextPc) : (s.sequence n).sp = s.sp := by cases n <;> rfl
@[simp] theorem State.sequence_memRead (n : NextPc) (a : Nat) : (s.sequence n).memRead a = s.memRead a := by
  cases n <;> rfl

/-! ### The register file -/

@[simp] theorem Regs.get_set_same (r : Regs) (i : RegIdx) (v : RegVal) : (r.set i v).get i = v := by
  fin_cases i <;> rfl

theorem Regs.get_set_other (r : Regs) {i j : RegIdx} (v : RegVal) (h : j ≠ i) : (r.set i v).get j = r.get j := by
  fin_cases i <;> fin_cases j <;> first | rfl | exact absurd rfl h

theorem Regs.get_set (r : Regs) (i j : RegIdx) (v : RegVal) :
    (r.set i v).get j = if j = i then v else r.get j := by
  split
  · next h => subst h; exact r.get_set_same j v
  · next h => exact r.get_set_other v h

/-- Register files that read alike are equal. -/
theorem Regs.ext_get {r r' : Regs} (h : ∀ i, r.get i = r'.get i) : r = r' := by
  cases r; cases r'
  simp only [Regs.mk.injEq]
  exact ⟨h 0, h 1, h 2, h 3, h 4, h 5, h 6, h 7⟩

theorem State.setReg_reg (i j : RegIdx) (v : RegVal) : (s.setReg i v).reg j = if j = i then v else s.reg j :=
  s.regs.get_set i j v

@[simp] theorem State.setReg_reg_same (i : RegIdx) (v : RegVal) : (s.setReg i v).reg i = v := s.regs.get_set_same i v

theorem State.setReg_reg_other {i j : RegIdx} (v : RegVal) (h : j ≠ i) : (s.setReg i v).reg j = s.reg j :=
  s.regs.get_set_other v h

theorem State.sp_eq : s.sp = s.reg Config.spIndex := rfl

theorem State.setSp_eq (v : RegVal) : s.setSp v = s.setReg Config.spIndex v := rfl

theorem State.setSp_reg_other {j : RegIdx} (v : RegVal) (h : j ≠ Config.spIndex) : (s.setSp v).reg j = s.reg j :=
  s.setReg_reg_other v h

@[simp] theorem State.setSp_mem (v : RegVal) : (s.setSp v).mem = s.mem := rfl
@[simp] theorem State.setSp_pc (v : RegVal) : (s.setSp v).pc = s.pc := rfl
@[simp] theorem State.setSp_fl (v : RegVal) : (s.setSp v).fl = s.fl := rfl
@[simp] theorem State.setSp_running (v : RegVal) : (s.setSp v).running = s.running := rfl
@[simp] theorem State.setSp_fault (v : RegVal) : (s.setSp v).fault = s.fault := rfl
@[simp] theorem State.setSp_output (v : RegVal) : (s.setSp v).output = s.output := rfl
@[simp] theorem State.setSp_memRead (v : RegVal) (a : Nat) : (s.setSp v).memRead a = s.memRead a := rfl

@[simp] theorem State.setSp_sp (v : RegVal) : (s.setSp v).sp = v := rfl

end Sys2Proof.Machine
end

