-- ==== Sys2Proof/Laws/Memory.lean ====
section
/-! SUPPORT. Memory: read after write, the canonical form and who keeps it, and what the memory_access_controller answers. -/

namespace Sys2Proof.Machine

/-! ### Read after write, with no premise on the form -/

theorem Memory.get_insert_same (a : Nat) (v : Byte) (m : Memory) (h : ∀ c ∈ m, c.1 ≠ a) :
    (Memory.insert a v m).get a = v := by
  induction m with
  | nil => simp [Memory.insert, Memory.get]
  | cons c m ih =>
    have hc : c.1 ≠ a := h c (by simp)
    have ih' := ih fun d hd => h d (by simp [hd])
    unfold Memory.insert
    split <;> simp [Memory.get, hc, ih']

theorem Memory.get_insert_other (a b : Nat) (v : Byte) (m : Memory) (h : b ≠ a) :
    (Memory.insert a v m).get b = m.get b := by
  induction m with
  | nil => simp [Memory.insert, Memory.get, Ne.symm h]
  | cons c m ih =>
    unfold Memory.insert
    split <;> simp [Memory.get, Ne.symm h, ih]

theorem Memory.get_filter_same (a : Nat) (m : Memory) : Memory.get (m.filter (fun c => c.1 != a)) a = Memory.unlisted := by
  induction m with
  | nil => rfl
  | cons c m ih => by_cases h : c.1 = a <;> simp [h, Memory.get, ih]

theorem Memory.get_filter_other (a b : Nat) (m : Memory) (h : b ≠ a) :
    Memory.get (m.filter (fun c => c.1 != a)) b = m.get b := by
  induction m with
  | nil => rfl
  | cons c m ih =>
    by_cases hc : c.1 = a
    · have : c.1 ≠ b := fun e => h (e ▸ hc)
      simp [Memory.get, hc, ih, Ne.symm h]
    · simp [hc, Memory.get, ih]

@[simp] theorem Memory.get_set_same (m : Memory) (a : Nat) (v : Byte) : (m.set a v).get a = v := by
  unfold Memory.set
  split
  · next h => rw [Memory.get_filter_same, h]
  · exact Memory.get_insert_same a v _ (by simp)

theorem Memory.get_set_other (m : Memory) {a b : Nat} (v : Byte) (h : b ≠ a) : (m.set a v).get b = m.get b := by
  unfold Memory.set
  split
  · exact Memory.get_filter_other a b m h
  · rw [Memory.get_insert_other a b v _ h, Memory.get_filter_other a b m h]

/-- What every cell holds after bytes are written at rising addresses. -/
theorem Memory.get_setBytes (bs : List Byte) (m : Memory) (a b : Nat) :
    (m.setBytes a bs).get b = if a ≤ b then (bs[b - a]?).getD (m.get b) else m.get b := by
  induction bs generalizing m a with
  | nil => simp [Memory.setBytes]
  | cons v bs ih =>
    simp only [Memory.setBytes, ih]
    by_cases hab : a = b
    · subst hab; simp
    · by_cases hlt : a ≤ b
      · have h1 : a + 1 ≤ b := by omega
        have h2 : b - a = b - (a + 1) + 1 := by omega
        simp [hlt, h1, h2, Memory.get_set_other m v (Ne.symm hab)]
      · have h1 : ¬ a + 1 ≤ b := by omega
        simp [hlt, h1, Memory.get_set_other m v (Ne.symm hab)]

/-! ### The canonical form -/

theorem Memory.wfFrom_cons {lo : Nat} {c : Host.Cell} {m : Memory} :
    Memory.wfFrom lo (c :: m) = true ↔
      lo ≤ c.1 ∧ c.1 < Config.memCapacity ∧ c.2 ≠ Memory.unlisted ∧ Memory.wfFrom (c.1 + 1) m = true := by
  simp [Memory.wfFrom, and_assoc]

theorem Memory.wfFrom_le {lo lo' : Nat} (h : lo' ≤ lo) {m : Memory} (hm : Memory.wfFrom lo m = true) :
    Memory.wfFrom lo' m = true := by
  cases m with
  | nil => rfl
  | cons c m =>
    rw [Memory.wfFrom_cons] at *
    exact ⟨by omega, hm.2⟩

/-- A canonical memory lists nothing below its lower bound, so an address below it reads as unlisted. -/
theorem Memory.get_below {lo a : Nat} (h : a < lo) {m : Memory} (hm : Memory.wfFrom lo m = true) :
    m.get a = Memory.unlisted := by
  induction m generalizing lo with
  | nil => rfl
  | cons c m ih =>
    rw [Memory.wfFrom_cons] at hm
    have hne : c.1 ≠ a := by omega
    simp only [Memory.get, if_neg hne]
    exact ih (lo := c.1 + 1) (by omega) hm.2.2.2

theorem Memory.wfFrom_filter (a : Nat) {lo : Nat} {m : Memory} (hm : Memory.wfFrom lo m = true) :
    Memory.wfFrom lo (m.filter (fun c => c.1 != a)) = true := by
  induction m generalizing lo with
  | nil => rfl
  | cons c m ih =>
    rw [Memory.wfFrom_cons] at hm
    by_cases h : c.1 = a
    · simpa [List.filter_cons, h] using Memory.wfFrom_le (lo' := lo) (by omega) (ih hm.2.2.2)
    · simpa [List.filter_cons, h, Memory.wfFrom_cons] using ⟨hm.1, hm.2.1, hm.2.2.1, ih hm.2.2.2⟩

theorem Memory.wfFrom_insert {a : Nat} {v : Byte} (ha : a < Config.memCapacity) (hv : v ≠ Memory.unlisted) {lo : Nat}
    (hlo : lo ≤ a) {m : Memory} (hm : Memory.wfFrom lo m = true) (hne : ∀ c ∈ m, c.1 ≠ a) :
    Memory.wfFrom lo (Memory.insert a v m) = true := by
  induction m generalizing lo with
  | nil => exact Memory.wfFrom_cons.2 ⟨hlo, ha, hv, rfl⟩
  | cons c m ih =>
    have hc := Memory.wfFrom_cons.1 hm
    have hca : c.1 ≠ a := hne c (by simp)
    unfold Memory.insert
    split
    · next h => exact Memory.wfFrom_cons.2 ⟨hlo, ha, hv, Memory.wfFrom_cons.2 ⟨h, hc.2⟩⟩
    · next h =>
      exact Memory.wfFrom_cons.2 ⟨hc.1, hc.2.1, hc.2.2.1,
        ih (by omega) hc.2.2.2 fun d hd => hne d (by simp [hd])⟩

/-- A write inside the address space keeps the canonical form. -/
theorem Memory.wf_set {m : Memory} (hm : m.wf = true) {a : Nat} (ha : a < Config.memCapacity) (v : Byte) :
    (m.set a v).wf = true := by
  unfold Memory.set Memory.wf
  split
  · exact Memory.wfFrom_filter a hm
  · next h => exact Memory.wfFrom_insert ha h (Nat.zero_le a) (Memory.wfFrom_filter a hm) (by simp)

theorem Memory.wf_setBytes {m : Memory} (hm : m.wf = true) (bs : List Byte) {a : Nat}
    (ha : a + bs.length ≤ Config.memCapacity) : (m.setBytes a bs).wf = true := by
  induction bs generalizing m a with
  | nil => exact hm
  | cons b bs ih =>
    simp only [List.length_cons] at ha
    exact ih (Memory.wf_set hm (by omega) b) (by omega)

theorem State.reset_mem_wf : State.reset.mem.wf = true := rfl

/-! ### The memory_access_controller -/

theorem State.memRead_of_lt (s : State) {a : Nat} (h : a < 256) : s.memRead a = some (s.mem.get a) :=
  if_pos h

theorem State.memRead_of_ge (s : State) {a : Nat} (h : 256 ≤ a) : s.memRead a = none :=
  if_neg (Nat.not_lt.2 h)

theorem State.memRead_eq_none {s : State} {a : Nat} : s.memRead a = none ↔ 256 ≤ a := by
  unfold State.memRead Config.memCapacity; split <;> simp <;> omega

theorem State.memRead_eq_some {s : State} {a : Nat} {v : Byte} : s.memRead a = some v ↔ a < 256 ∧ s.mem.get a = v := by
  unfold State.memRead Config.memCapacity; split <;> simp_all

/-- What a write that is in bounds leaves. -/
theorem State.memWrite_eq_some {s t : State} {a : Nat} {v : Byte} :
    s.memWrite a v = some t ↔ a < 256 ∧ t = { s with mem := s.mem.set a v } := by
  unfold State.memWrite Config.memCapacity; split <;> simp_all [eq_comm]

theorem State.memWrite_eq_none {s : State} {a : Nat} {v : Byte} : s.memWrite a v = none ↔ 256 ≤ a := by
  unfold State.memWrite Config.memCapacity; split <;> simp <;> omega

/-- Reads after a write: the written byte at its address, every other byte as before. -/
theorem State.memRead_setMem (s : State) {a : Nat} (v : Byte) (h : a < 256) (b : Nat) :
    ({ s with mem := s.mem.set a v } : State).memRead b = if b = a then some v else s.memRead b := by
  split
  · next e => subst e; simp [State.memRead, Config.memCapacity, h]
  · next e => simp [State.memRead, Memory.get_set_other s.mem v e]

end Sys2Proof.Machine
end

