-- ==== Sys2Proof/Laws/Ops.lean ====
section
/-! SUPPORT. What each shared operation can answer, said once: the stack checks as bounds on the stack pointer, the
arithmetic as numbers, the flag function by cases, and the inversion of `load` and `store`. -/

namespace Sys2Proof.Machine

/-! ### Arithmetic -/

@[simp] theorem addMod256_toNat (va vb : RegVal) : (addMod256 va vb).toNat = (va.toNat + vb.toNat) % 256 := by
  simp [addMod256]; omega

@[simp] theorem mulMod256_toNat (va vb : RegVal) : (mulMod256 va vb).toNat = va.toNat * vb.toNat % 256 := by
  simp only [mulMod256, BitVec.toNat_ofNat]
  have : va.toNat * vb.toNat % 256 < 256 := Nat.mod_lt _ (by decide)
  omega

@[simp] theorem byteValue_toNat (b : Byte) : (byteValue b).toNat = b.toNat := by
  have := b.isLt
  simp only [byteValue, BitVec.toNat_setWidth]; omega

theorem byteOf_some {v : RegVal} (h : v.toNat < 256) : byteOf v = some (v.setWidth 8) := if_pos h

theorem byteOf_none {v : RegVal} (h : 256 ≤ v.toNat) : byteOf v = none := if_neg (Nat.not_lt.2 h)

theorem setWidth8_toNat {v : RegVal} (h : v.toNat < 256) : (v.setWidth 8).toNat = v.toNat := by
  simp only [BitVec.toNat_setWidth]; omega

/-! ### Stack checks -/

theorem pushOverflowsAt_iff {floor : Nat} {sp : RegVal} : pushOverflowsAt floor sp = true ↔ sp.toNat ≤ floor := by
  simp only [pushOverflowsAt, decide_eq_true_eq]; omega

theorem popUnderflows_iff {sp : RegVal} : popUnderflows sp = true ↔ 256 ≤ sp.toNat := by
  unfold popUnderflows Config.memCapacity
  rw [decide_eq_true_eq]; omega

theorem spDown_toNat {sp : RegVal} (h : sp.toNat ≠ 0) : (spDown sp).toNat = sp.toNat - 1 := by
  have := sp.isLt
  rw [spDown, BitVec.toNat_sub, show (1 : RegVal).toNat = 1 from rfl]; omega

theorem spUp_toNat {sp : RegVal} (h : sp.toNat < 511) : (spUp sp).toNat = sp.toNat + 1 := by
  rw [spUp, BitVec.toNat_add, show (1 : RegVal).toNat = 1 from rfl]; omega

/-! ### Flags -/

theorem Config.flagLayout_wf : FlagLayout.wf Config.flagLayout = true := by decide

/-- The flag function under any layout has three values. -/
theorem flagsWith_cases (l : FlagLayout) (va vb : RegVal) :
    (va.toNat = vb.toNat ∧ flagsWith l va vb = bitByte l.e) ∨
    (vb.toNat < va.toNat ∧ flagsWith l va vb = bitByte l.g) ∨
    (va.toNat < vb.toNat ∧ flagsWith l va vb = bitByte l.l) := by
  unfold flagsWith
  split
  · next h => exact .inl ⟨h, rfl⟩
  · split
    · next h => exact .inr (.inl ⟨h, rfl⟩)
    · exact .inr (.inr ⟨by omega, rfl⟩)

/-- The flag function and the E test of this hardware, in one spelling. -/
theorem flagsWith_default (va vb : RegVal) : flagsWith Config.flagLayout va vb = flags va vb := rfl

theorem State.equalFlagWith_default (s : State) : s.equalFlagWith Config.flagLayout = s.equalFlag := rfl

theorem flags_of_eq {va vb : RegVal} (h : va.toNat = vb.toNat) : flags va vb = bitByte Config.flagLayout.e := if_pos h

theorem flags_of_gt {va vb : RegVal} (h : vb.toNat < va.toNat) : flags va vb = bitByte Config.flagLayout.g := by
  rw [flags, flagsWith, if_neg (by omega), if_pos h]

theorem flags_of_lt {va vb : RegVal} (h : va.toNat < vb.toNat) : flags va vb = bitByte Config.flagLayout.l := by
  rw [flags, flagsWith, if_neg (by omega), if_neg (by omega)]

/-- The flag function has three values. -/
theorem flags_cases (va vb : RegVal) :
    (va.toNat = vb.toNat ∧ flags va vb = bitByte Config.flagLayout.e) ∨
    (vb.toNat < va.toNat ∧ flags va vb = bitByte Config.flagLayout.g) ∨
    (va.toNat < vb.toNat ∧ flags va vb = bitByte Config.flagLayout.l) := flagsWith_cases Config.flagLayout va vb

/-- Under a layout of three different bits, E is set by exactly the equal values. -/
theorem flagsWith_equal {l : FlagLayout} (hl : l.wf = true) (va vb : RegVal) :
    (flagsWith l va vb).getLsbD l.e = decide (va.toNat = vb.toNat) := by
  obtain ⟨⟨⟨⟨⟨he, -⟩, -⟩, hg⟩, hl⟩, -⟩ : ((((l.e < 8 ∧ l.g < 8) ∧ l.l < 8) ∧ l.e ≠ l.g) ∧ l.e ≠ l.l) ∧ l.g ≠ l.l := by
    simpa [FlagLayout.wf] using hl
  obtain ⟨h, e⟩ | ⟨h, e⟩ | ⟨h, e⟩ := flagsWith_cases l va vb
  · simp [e, bitByte, h, he]
  · simp [e, bitByte, BitVec.getLsbD_twoPow, Ne.symm hg, Nat.ne_of_gt h]
  · simp [e, bitByte, BitVec.getLsbD_twoPow, Ne.symm hl, Nat.ne_of_lt h]

/-! ### Load and store -/

theorem State.load_of_lt (s : State) {a : Nat} (h : a < 256) (go : Byte → Result) : s.load a go = go (s.mem.get a) := by
  simp [State.load, s.memRead_of_lt h]

theorem State.load_of_ge (s : State) {a : Nat} (h : 256 ≤ a) (go : Byte → Result) :
    s.load a go = s.raise .outOfBoundsAccess a := by
  simp [State.load, s.memRead_of_ge h]

theorem State.store_of_lt (start s : State) {a : Nat} (h : a < 256) (v : Byte) (go : State → Result) :
    start.store s a v go = go { s with mem := s.mem.set a v } := by
  simp [State.store, State.memWrite, Config.memCapacity, h]

theorem State.store_of_ge (start s : State) {a : Nat} (h : 256 ≤ a) (v : Byte) (go : State → Result) :
    start.store s a v go = start.raise .outOfBoundsAccess a := by
  simp [State.store, State.memWrite_eq_none.2 h]

end Sys2Proof.Machine
end

