-- ==== Sys2Proof/Laws/PerInstr.lean ====
section
/-! SUPPORT. Facts about every instruction as syntax, one lemma a constructor. -/

namespace Sys2Proof.Laws

/-- The encoding of an instruction is as long as its width (30_encoding.md rule R60), and bits 7:6 of its opcode byte
equal its operand count (rule R67). -/
def EncodingShape.Statement (i : Instr) : Prop :=
  (encode i).length = i.width ∧ (Config.opcodeMap i.op).extractLsb' 6 2 = BitVec.ofNat 2 i.op.operandCount

/-- Bits 7:6 of every opcode byte are its operand count (30_encoding.md rule R67). -/
theorem opcodeMap_countBits (op : Op) : (Config.opcodeMap op).extractLsb' 6 2 = BitVec.ofNat 2 op.operandCount := by
  cases op <;> decide

theorem EncodingShape.ldi (a : RegIdx) (imm : Byte) : EncodingShape.Statement (.ldi a imm) := ⟨rfl, opcodeMap_countBits _⟩
theorem EncodingShape.prn (a : RegIdx) : EncodingShape.Statement (.prn a) := ⟨rfl, opcodeMap_countBits _⟩
theorem EncodingShape.hlt : EncodingShape.Statement .hlt := ⟨rfl, opcodeMap_countBits _⟩
theorem EncodingShape.mul (a b : RegIdx) : EncodingShape.Statement (.mul a b) := ⟨rfl, opcodeMap_countBits _⟩
theorem EncodingShape.add (a b : RegIdx) : EncodingShape.Statement (.add a b) := ⟨rfl, opcodeMap_countBits _⟩
theorem EncodingShape.push (a : RegIdx) : EncodingShape.Statement (.push a) := ⟨rfl, opcodeMap_countBits _⟩
theorem EncodingShape.pop (a : RegIdx) : EncodingShape.Statement (.pop a) := ⟨rfl, opcodeMap_countBits _⟩
theorem EncodingShape.call (a : RegIdx) : EncodingShape.Statement (.call a) := ⟨rfl, opcodeMap_countBits _⟩
theorem EncodingShape.ret : EncodingShape.Statement .ret := ⟨rfl, opcodeMap_countBits _⟩
theorem EncodingShape.cmp (a b : RegIdx) : EncodingShape.Statement (.cmp a b) := ⟨rfl, opcodeMap_countBits _⟩
theorem EncodingShape.jeq (a : RegIdx) : EncodingShape.Statement (.jeq a) := ⟨rfl, opcodeMap_countBits _⟩
theorem EncodingShape.jne (a : RegIdx) : EncodingShape.Statement (.jne a) := ⟨rfl, opcodeMap_countBits _⟩
theorem EncodingShape.jmp (a : RegIdx) : EncodingShape.Statement (.jmp a) := ⟨rfl, opcodeMap_countBits _⟩

end Sys2Proof.Laws
end

