-- ==== Sys2Proof/Laws/Step.lean ====
section
/-! SUPPORT. What a step and each stack instruction can do, said once. -/

namespace Sys2Proof.Machine

theorem State.enabled_iff {s : State} : s.enabled = true ↔ s.running = true ∧ s.fault = none := by
  simp [State.enabled]

/-! ### The step as a cycle of decoding and executing -/

/-- An enabled cycle executes the instruction decoded. -/
theorem cycle_of_ok {s : State} (he : s.enabled = true) (i : Instr) (f : Instr → Result) : s.cycle (.ok i) f = f i := by
  obtain ⟨hr, hf⟩ := State.enabled_iff.1 he
  simp [State.cycle, hf, hr]

/-- An enabled cycle that decodes nothing raises the decode error's fault. -/
theorem cycle_of_error {s : State} (he : s.enabled = true) (e : DecodeError) (f : Instr → Result) :
    s.cycle (.error e) f = s.raiseDecode e := by
  obtain ⟨hr, hf⟩ := State.enabled_iff.1 he
  simp [State.cycle, hf, hr]

/-- A cycle that answers a next state was enabled, and raised a decode fault or executed an instruction. -/
theorem cycle_cases {s t : State} {d : Except DecodeError Instr} {f : Instr → Result} (h : s.cycle d f = .next t) :
    s.enabled = true ∧ ((∃ e, d = .error e ∧ s.raiseDecode e = .next t) ∨ (∃ i, d = .ok i ∧ f i = .next t)) := by
  have he : s.enabled = true := by
    unfold State.cycle at h
    split at h
    · cases h
    · next hf =>
      split at h
      · next hr => exact State.enabled_iff.2 ⟨hr, hf⟩
      · cases h
  refine ⟨he, ?_⟩
  cases d with
  | error e => exact .inl ⟨e, rfl, by rw [← cycle_of_error he e f, h]⟩
  | ok i => exact .inr ⟨i, rfl, by rw [← cycle_of_ok he i f, h]⟩

/-- `exec` is the dispatch at the default parameters. -/
theorem exec_eq_execWith (i : Instr) (s : State) : exec i s = execWith Config.params i s := by cases i <;> rfl

/-- `step` is the step at the default parameters. -/
theorem step_eq_stepWith (s : State) : step s = stepWith Config.params s :=
  congrArg (s.cycle s.fetchDecode) (funext fun i => exec_eq_execWith i s)

/-- An enabled step runs the instruction it decodes. -/
theorem step_of_decoded {s : State} (he : s.enabled = true) {i : Instr} (h : s.fetchDecode = .ok i) :
    step s = exec i s := by rw [step, h, cycle_of_ok he]

theorem stepWith_of_decoded {p : Params} {s : State} (he : s.enabled = true) {i : Instr}
    (h : s.fetchDecodeWith p.opcodeMap = .ok i) : stepWith p s = execWith p i s := by rw [stepWith, h, cycle_of_ok he]

/-- An enabled step that decodes nothing raises the decode error's fault. -/
theorem step_of_decodeError {s : State} (he : s.enabled = true) {e : DecodeError} (h : s.fetchDecode = .error e) :
    step s = s.raiseDecode e := by rw [step, h, cycle_of_error he]

theorem stepWith_of_decodeError {p : Params} {s : State} (he : s.enabled = true) {e : DecodeError}
    (h : s.fetchDecodeWith p.opcodeMap = .error e) : stepWith p s = s.raiseDecode e := by
  rw [stepWith, h, cycle_of_error he]

/-- A step that answers a next state was enabled. -/
theorem enabled_of_step {s t : State} (h : step s = .next t) : s.enabled = true := (cycle_cases h).1

/-- A step that answers a next state raised a decode fault or ran an instruction. -/
theorem step_cases {s t : State} (h : step s = .next t) :
    s.enabled = true ∧
      ((∃ e, s.fetchDecode = .error e ∧ s.raiseDecode e = .next t) ∨
       (∃ i, s.fetchDecode = .ok i ∧ exec i s = .next t)) := cycle_cases h

theorem stepWith_cases {p : Params} {s t : State} (h : stepWith p s = .next t) :
    s.enabled = true ∧
      ((∃ e, s.fetchDecodeWith p.opcodeMap = .error e ∧ s.raiseDecode e = .next t) ∨
       (∃ i, s.fetchDecodeWith p.opcodeMap = .ok i ∧ execWith p i s = .next t)) := cycle_cases h

/-! ### The loop of a run -/

theorem runLoop_zero (s : State) : runLoop 0 s =
    match s.fault with
    | some r => .faulted r s
    | none => if s.running then .unfinished s else .halted s := rfl

theorem runLoop_succ (fuel : Nat) (s : State) : runLoop (fuel + 1) s =
    match step s with
    | .next t => runLoop fuel t
    | .fault (.recorded r) => .faulted r s
    | .refused .notRunning => .halted s
    | .refused r => .refused r s := rfl

/-- A run of this hardware is the run at the default parameters. -/
theorem runLoop_eq_runLoopWith (fuel : Nat) (s : State) : runLoop fuel s = runLoopWith Config.params fuel s := by
  rw [runLoop, runLoopWith, funext step_eq_stepWith]

/-! ### The host's moves -/

theorem resetEntry_of_enabled {s : State} (h : s.enabled = true) : s.resetEntry = none := if_pos h

theorem resetEntry_of_not_enabled {s : State} (h : s.enabled = false) : s.resetEntry = some s.hostReset := by
  simp [State.resetEntry, h]

/-- `reset()` leaves the state it finds or the reset state. -/
theorem hostMove_reset_cases (s : State) : s.hostMove .reset = s ∨ s.hostMove .reset = s.hostReset := by
  simp only [State.hostMove, State.resetEntry]; split <;> simp

/-- A decode error raises a fault and does nothing else. -/
theorem raiseDecode_next {s t : State} {e : DecodeError} (h : s.raiseDecode e = .next t) :
    ∃ k a, k ≠ .imageTooLarge ∧ t = s.withFault k a := by
  cases e <;> cases h <;> exact ⟨_, _, by decide, rfl⟩

/-! ### The stack instructions, by the stack pointer -/

theorem execPushAt_overflow {floor : Nat} {s : State} (h : s.sp.toNat ≤ floor) (a : RegIdx) :
    execPushAt floor a s = s.raise .stackOverflow s.sp.toNat := by
  simp [execPushAt, pushOverflowsAt_iff.2 h]

/-- Above the floor PUSH does not depend on it. -/
theorem execPushAt_eq {floor : Nat} {s : State} (h : floor < s.sp.toNat) (a : RegIdx) :
    execPushAt floor a s = execPush a s := by
  simp [execPush, execPushAt, pushOverflowsAt_iff, Config.stackFloor, Nat.not_le.2 h,
    show s.sp.toNat ≠ 0 by omega]

theorem execPush_overflow {s : State} (h : s.sp.toNat = 0) (a : RegIdx) :
    execPush a s = s.raise .stackOverflow s.sp.toNat := execPushAt_overflow (Nat.le_of_eq h) a

/-- PUSH with room on the stack, of a value that is a byte. -/
theorem execPush_next {s : State} (h0 : s.sp.toNat ≠ 0) (h1 : s.sp.toNat ≤ 256) {a : RegIdx}
    (hv : ((s.setSp (spDown s.sp)).reg a).toNat < 256) :
    execPush a s = .next (({ s.setSp (spDown s.sp) with
      mem := s.mem.set (s.sp.toNat - 1) (((s.setSp (spDown s.sp)).reg a).setWidth 8) } : State).sequence (.seq 2)) := by
  have hd := spDown_toNat h0
  have hlt : s.sp.toNat - 1 < 256 := by omega
  simp [execPush, execPushAt, pushOverflowsAt_iff, Config.stackFloor, h0, hd, Config.memCapacity, hlt, byteOf_some hv,
    State.store_of_lt]

/-- PUSH above the memory's end, which no reachable state does. -/
theorem execPush_outOfBounds {s : State} (h : 256 < s.sp.toNat) (a : RegIdx) :
    execPush a s = s.raise .outOfBoundsAccess (s.sp.toNat - 1) := by
  have h0 : s.sp.toNat ≠ 0 := by omega
  have hlt : ¬ s.sp.toNat - 1 < 256 := by omega
  simp [execPush, execPushAt, pushOverflowsAt_iff, Config.stackFloor, h0, spDown_toNat h0, Config.memCapacity, hlt]

/-- PUSH of a value that is no byte, which no reachable state does. -/
theorem execPush_refused {s : State} (h0 : s.sp.toNat ≠ 0) (h1 : s.sp.toNat ≤ 256) {a : RegIdx}
    (hv : 256 ≤ ((s.setSp (spDown s.sp)).reg a).toNat) : execPush a s = .refused .valueAboveByte := by
  have hlt : s.sp.toNat - 1 < 256 := by omega
  simp [execPush, execPushAt, pushOverflowsAt_iff, Config.stackFloor, h0, spDown_toNat h0, Config.memCapacity, hlt,
    byteOf_none hv]

theorem execPop_underflow {s : State} (h : 256 ≤ s.sp.toNat) (a : RegIdx) :
    execPop a s = s.raise .stackUnderflow s.sp.toNat := by
  simp [execPop, popUnderflows_iff.2 h]

/-- POP of a stack that is not empty. -/
theorem execPop_next {s : State} (h : s.sp.toNat < 256) (a : RegIdx) :
    execPop a s = .next (((s.setReg a (byteValue (s.mem.get s.sp.toNat))).setSp
      (spUp (s.setReg a (byteValue (s.mem.get s.sp.toNat))).sp)).sequence (.seq 2)) := by
  simp [execPop, popUnderflows_iff, Nat.not_le.2 h, State.load_of_lt s h]

theorem execCallAt_overflow {floor : Nat} {s : State} (h : s.sp.toNat ≤ floor) (a : RegIdx) :
    execCallAt floor a s = s.raise .stackOverflow s.sp.toNat := by
  simp [execCallAt, pushOverflowsAt_iff.2 h]

/-- Above the floor CALL does not depend on it. -/
theorem execCallAt_eq {floor : Nat} {s : State} (h : floor < s.sp.toNat) (a : RegIdx) :
    execCallAt floor a s = execCall a s := by
  simp [execCall, execCallAt, pushOverflowsAt_iff, Config.stackFloor, Nat.not_le.2 h,
    show s.sp.toNat ≠ 0 by omega]

theorem execCall_overflow {s : State} (h : s.sp.toNat = 0) (a : RegIdx) :
    execCall a s = s.raise .stackOverflow s.sp.toNat := execCallAt_overflow (Nat.le_of_eq h) a

theorem execCall_noReturn {s : State} (h : s.sp.toNat ≠ 0) (hp : 253 < s.pc) (a : RegIdx) :
    execCall a s = s.raise .outOfBoundsAccess (s.pc + 2) := by
  simp [execCall, execCallAt, pushOverflowsAt_iff, Config.stackFloor, h, show 255 < s.pc + 2 by omega]

/-- CALL with room on the stack and a return address. -/
theorem execCall_next {s : State} (h0 : s.sp.toNat ≠ 0) (h1 : s.sp.toNat ≤ 256) (hp : s.pc ≤ 253) (a : RegIdx) :
    execCall a s = .next (({ s.setSp (spDown s.sp) with
      mem := s.mem.set (s.sp.toNat - 1) (BitVec.ofNat 8 (s.pc + 2)) } : State).sequence
        (.target ((s.setSp (spDown s.sp)).reg a).toNat)) := by
  have hlt : s.sp.toNat - 1 < 256 := by omega
  simp [execCall, execCallAt, pushOverflowsAt_iff, Config.stackFloor, h0, spDown_toNat h0, show ¬ 255 < s.pc + 2 by omega, State.store_of_lt, hlt]
  rfl

/-- CALL above the memory's end, which no reachable state does. -/
theorem execCall_outOfBounds {s : State} (h : 256 < s.sp.toNat) (hp : s.pc ≤ 253) (a : RegIdx) :
    execCall a s = s.raise .outOfBoundsAccess (s.sp.toNat - 1) := by
  have h0 : s.sp.toNat ≠ 0 := by omega
  simp [execCall, execCallAt, pushOverflowsAt_iff, Config.stackFloor, h0, spDown_toNat h0, show ¬ 255 < s.pc + 2 by omega,
    State.store_of_ge s _ (show 256 ≤ s.sp.toNat - 1 by omega)]

theorem execRet_underflow {s : State} (h : 256 ≤ s.sp.toNat) : execRet s = s.raise .stackUnderflow s.sp.toNat := by
  simp [execRet, popUnderflows_iff.2 h]

/-- RET with a stack that is not empty. -/
theorem execRet_next {s : State} (h : s.sp.toNat < 256) :
    execRet s = .next ((s.sequence (.target (s.mem.get s.sp.toNat).toNat)).setSp (spUp s.sp)) := by
  simp [execRet, popUnderflows_iff, Nat.not_le.2 h, State.load_of_lt s h]

end Sys2Proof.Machine
end

