-- ==== Sys2Proof/Tests/Slice0.lean ====
section
/-! SUPPORT. Tests with results taken from the spec (rows V<n>, W<n> and K<n> of 95_test_vectors.md and the rules named),
and for every obligation with hypotheses a state that meets them. -/

namespace Sys2Proof.Tests

open Sys2Proof.Machine

/-! ### Helpers -/

/-- The bytes at address 0, the core running as after `run()`. -/
def boot (bytes : List Byte) : State := ({ State.reset with mem := Memory.setBytes [] 0 bytes } : State).enterRun

/-- The next state of an answer, if it is one. -/
def next? : Result → Option State
  | .next t => some t
  | .fault _ => none
  | .refused _ => none

/-- Something read from the state after one step. -/
def after {α : Type} (s : State) (f : State → α) : Option α := (next? (step s)).map f

/-- The fault record a step leaves. -/
def faultAfter (s : State) : Option FaultRecord := (next? (step s)).bind (·.fault)

/-! ### WellFormed: each check refuses an ill-formed term -/

theorem test_wf_register_byte_8 : Byte.isRegister 8 = false ∧ Byte.isRegister 7 = true := by decide
theorem test_wf_operand_count : Op.operandsWf .ldi [0] = false := by decide
theorem test_wf_operand_register : Op.operandsWf .add [0, 9] = false := by decide
theorem test_wf_immediate_unchecked : Op.operandsWf .ldi [0, 255] = true := by decide
theorem test_wf_fits : (Instr.ldi 0 0).fitsAt 254 = false ∧ (Instr.ldi 0 0).fitsAt 253 = true := by decide
theorem test_wf_opcode_map : OpcodeMap.wf (fun _ => 0) = false := by decide
theorem test_wf_flag_layout_same_bit : FlagLayout.wf ⟨0, 0, 2⟩ = false := by decide
theorem test_wf_flag_layout_no_bit : FlagLayout.wf ⟨0, 1, 8⟩ = false := by decide

theorem test_wf_params_map : Params.wf ⟨fun _ => 0, Config.flagLayout, 0⟩ = false := by decide
theorem test_wf_params_layout : Params.wf ⟨Config.opcodeMap, ⟨1, 1, 2⟩, 0⟩ = false := by decide

/-! ### Decoding: a word of every constructor, bit by bit from 30_encoding.md rules R62 and R65 -/

theorem test_decode_ldi : decodeBytes [0b10000010, 0b00000011, 0b11001000] = .ok (.ldi 3 200) := by decide
theorem test_decode_prn : decodeBytes [0b01000111, 0b00000000] = .ok (.prn 0) := by decide
theorem test_decode_hlt : decodeBytes [0b00000001] = .ok .hlt := by decide
theorem test_decode_mul : decodeBytes [0b10100010, 0b00000000, 0b00000001] = .ok (.mul 0 1) := by decide
theorem test_decode_add : decodeBytes [0b10100000, 0b00000111, 0b00000010] = .ok (.add 7 2) := by decide
theorem test_decode_push : decodeBytes [0b01000101, 0b00000101] = .ok (.push 5) := by decide
theorem test_decode_pop : decodeBytes [0b01000110, 0b00000111] = .ok (.pop 7) := by decide
theorem test_decode_call : decodeBytes [0b01010000, 0b00000001] = .ok (.call 1) := by decide
theorem test_decode_ret : decodeBytes [0b00010001] = .ok .ret := by decide
theorem test_decode_cmp : decodeBytes [0b10100111, 0b00000100, 0b00000110] = .ok (.cmp 4 6) := by decide
theorem test_decode_jeq : decodeBytes [0b01010101, 0b00000011] = .ok (.jeq 3) := by decide
theorem test_decode_jne : decodeBytes [0b01010110, 0b00000011] = .ok (.jne 3) := by decide
theorem test_decode_jmp : decodeBytes [0b01010100, 0b00000010] = .ok (.jmp 2) := by decide

/-- V4: bits 7:6 of 0x83 are 2, but it is not in the map. -/
theorem test_decode_illegal_0x83 : decodeBytes [0x83, 0, 0] = .error .illegalOpcode := by decide
/-- V12: `a` is checked before `b`. -/
theorem test_decode_first_bad_register : decodeBytes [0xA0, 9, 10] = .error (.invalidRegister 9) := by decide
/-- V15: the fetch checks come before the register checks. -/
theorem test_decode_fetch_before_register : decodeBytes [0xA0, 8] = .error (.missingByte 2) := by decide
theorem test_encode_cmp : encode (.cmp 4 6) = [0b10100111, 0b00000100, 0b00000110] := by decide
theorem test_table_word_cmp : decodeTableWord 24 0x0604A7 = some (.cmp 4 6) := by decide
/-- The spelling of 30_encoding.md rule R70. -/
theorem test_asm_ldi : (Instr.ldi 0 8).asm = "LDI R0,8" := by decide

/-! ### One step of each instruction -/

/-- V20 -/
theorem test_ldi : after (boot [0x82, 5, 0x2A]) (fun t => (t.reg 5, t.pc)) = some (42, 3) := by decide
/-- V21 -/
theorem test_ldi_moves_sp : after (boot [0x82, 7, 0]) State.sp = some 0 := by decide
/-- V23 -/
theorem test_prn_256 : after (boot [0x47, 7]) (fun t => (t.output, t.pc)) = some ([256], 2) := by decide
/-- 10_state.md rule R32: the decimal numeral, then a newline. -/
theorem test_prn_text : after (boot [0x47, 7]) State.outputText = some ['2', '5', '6', '\n'] := by decide
/-- V24 -/
theorem test_hlt : after { boot [1] with fl := 4 } (fun t => (t.running, t.pc, t.fl)) = some (false, 1, 4) := by decide
/-- V9 -/
theorem test_hlt_at_255 :
    after { boot [] with mem := [(255, 1)], pc := 255 } (fun t => (t.running, t.pc)) = some (false, 256) := by decide
/-- V39 -/
theorem test_mul_wraps : after (((boot [0xA2, 0, 1]).setReg 0 255).setReg 1 255) (·.reg 0) = some 1 := by decide
/-- V40 -/
theorem test_mul_by_256 : after ((boot [0xA2, 0, 7]).setReg 0 3) (·.reg 0) = some 0 := by decide
/-- W4 -/
theorem test_add_wraps :
    after (((boot [0xA0, 0, 1]).setReg 0 250).setReg 1 10) (fun t => (t.reg 0, t.reg 1, t.pc)) = some (4, 10, 3) := by
  decide
/-- V34 -/
theorem test_add_256 : after ((boot [0xA0, 0, 7]).setReg 0 9) (·.reg 0) = some 9 := by decide
/-- V42 -/
theorem test_cmp_less :
    after { ((boot [0xA7, 0, 1]).setReg 0 3).setReg 1 5 with fl := 1 } (fun t => (t.fl, t.pc)) = some (0b100, 3) := by
  decide
/-- V46 -/
theorem test_cmp_256_greater : after ((boot [0xA7, 7, 0]).setReg 0 255) (·.fl) = some 0b010 := by decide
/-- V50 -/
theorem test_push :
    after ((boot [0x45, 0]).setReg 0 7) (fun t => (t.sp, t.memRead 255, t.pc)) = some (255, some 7, 2) := by decide
/-- V53 -/
theorem test_push_sp : after (boot [0x45, 7]) (fun t => (t.sp, t.memRead 255)) = some (255, some 255) := by decide
/-- V54 -/
theorem test_pop :
    after ((({ boot [] with mem := [(0, 0x46), (1, 1), (255, 7)] } : State)).setSp 255)
      (fun t => (t.reg 1, t.sp, t.pc, t.memRead 255)) = some (7, 256, 2, some 7) := by decide
/-- V56 -/
theorem test_pop_sp :
    after ((({ boot [] with mem := [(0, 0x46), (1, 7), (255, 7)] } : State)).setSp 255) State.sp = some 8 := by decide
/-- V58 -/
theorem test_call :
    after (({ boot [] with mem := [(6, 0x50), (7, 1)], pc := 6 } : State).setReg 1 11)
      (fun t => (t.sp, t.memRead 255, t.pc)) = some (255, some 8, 11) := by decide
/-- V62 -/
theorem test_call_sp : after (boot [0x50, 7]) (fun t => (t.memRead 255, t.pc)) = some (some 2, 255) := by decide
/-- V63 -/
theorem test_ret :
    after (({ boot [] with mem := [(0, 0x11), (255, 8)] } : State).setSp 255) (fun t => (t.pc, t.sp)) = some (8, 256) := by
  decide
/-- V10: RET at 255 pops its own opcode byte. -/
theorem test_ret_at_255 :
    after (({ boot [] with mem := [(255, 0x11)], pc := 255 } : State).setSp 255) (fun t => (t.pc, t.sp)) =
      some (17, 256) := by decide
/-- V73 -/
theorem test_jeq_taken : after { (boot [0x55, 3]).setReg 3 12 with fl := 1 } (·.pc) = some 12 := by decide
/-- V75 -/
theorem test_jeq_after_reset : after ((boot [0x55, 3]).setReg 3 12) (·.pc) = some 2 := by decide
/-- V77 -/
theorem test_jne_not_taken : after { (boot [0x56, 3]).setReg 3 12 with fl := 1 } (·.pc) = some 2 := by decide
/-- V78 -/
theorem test_jne_taken : after { (boot [0x56, 3]).setReg 3 12 with fl := 2 } (·.pc) = some 12 := by decide
/-- V70 -/
theorem test_jmp : after ((boot [0x54, 3]).setReg 3 12) (·.pc) = some 12 := by decide
/-- V72 -/
theorem test_jmp_256 : after (boot [0x54, 7]) (·.pc) = some 256 := by decide

/-! ### Faults -/

/-- V1 -/
theorem test_fault_fetch_256 :
    faultAfter { boot [] with pc := 256 } = some ⟨.outOfBoundsAccess, 5, 256, none, 256⟩ := by decide
/-- V6 -/
theorem test_fault_operand_256 :
    faultAfter { boot [] with mem := [(254, 0x82)], pc := 254 } =
      some ⟨.outOfBoundsAccess, 5, 254, some 0x82, 256⟩ := by decide
/-- V2 -/
theorem test_fault_illegal :
    faultAfter { boot [] with pc := 10 } = some ⟨.illegalOpcode, 2, 10, some 0, 10⟩ := by decide
/-- V17: the jump would not be taken. -/
theorem test_fault_register : faultAfter (boot [0x55, 8]) = some ⟨.invalidRegister, 6, 0, some 0x55, 8⟩ := by decide
/-- V52 -/
theorem test_fault_overflow :
    faultAfter (({ boot [] with mem := [(3, 0x45)], pc := 3 } : State).setSp 0) =
      some ⟨.stackOverflow, 3, 3, some 0x45, 0⟩ := by decide
/-- V55 -/
theorem test_fault_underflow : faultAfter (boot [0x46, 1]) = some ⟨.stackUnderflow, 4, 0, some 0x46, 256⟩ := by decide
/-- V60 -/
theorem test_fault_call_254 :
    faultAfter { boot [] with mem := [(254, 0x50), (255, 1)], pc := 254 } =
      some ⟨.outOfBoundsAccess, 5, 254, some 0x50, 256⟩ := by decide

/-! ### The host -/

/-- 70_reset_and_hazards.md rule R234: not during a run. -/
theorem test_reset_refused_during_a_run : (boot [1]).hostMove .reset = boot [1] := by decide
/-- R231: admitted after a fault. -/
theorem test_reset_after_a_fault : ((boot []).withFault .illegalOpcode 0).hostMove .reset = State.reset := by decide
/-- V82 -/
theorem test_load_too_large : State.reset.loadImage [1] 256 = .imageTooLarge 257 := by decide
/-- V83 -/
theorem test_load_empty_at_256 : State.reset.loadImage [] 256 = .ok State.reset := by decide
/-- V89 -/
theorem test_snapshot_at_254 :
    ({ boot [] with mem := [(254, 0x47)], pc := 254 } : State).snapshot =
      ⟨254, some 0x47, some 0, none, (boot []).regs⟩ := by decide
/-- After HLT the loop returns; W7's last instruction, HLT at 5 with PC 6 after it. -/
theorem test_run_ends_halted :
    runLoop 1 { boot [] with mem := [(5, 1)], pc := 5 } =
      .halted { boot [] with mem := [(5, 1)], pc := 6, running := false } := by decide

/-! ### Other values of the starred parameters (00_scope.md rule R6) -/

/-- ADD and MUL with their bytes exchanged, FL as E, G, L in bits 7, 0, 3, and 16 reserved bytes below the stack. -/
def otherParams : Params where
  opcodeMap := fun op =>
    if op = .add then 0b10100010 else if op = .mul then 0b10100000 else Config.opcodeMap op
  flagLayout := ⟨7, 0, 3⟩
  stackFloor := 16

/-- Something read from the state after one step under other parameters. -/
def afterOther {α : Type} (s : State) (f : State → α) : Option α := (next? (stepWith otherParams s)).map f

/-- The byte 0xA2 is ADD there: 3 + 5. -/
theorem test_other_map : afterOther (((boot [0xA2, 0, 1]).setReg 0 3).setReg 1 5) (·.reg 0) = some 8 := by decide
/-- Equal values set bit 7 there. -/
theorem test_other_layout : afterOther (boot [0xA7, 0, 1]) (·.fl) = some 0b10000000 := by decide
/-- 43_stack_call.md rule R141: at stack pointer 16 the push would write at 15, below the floor; at 17 it writes at 16. -/
theorem test_other_floor :
    afterOther ((boot [0x45, 0]).setSp 16) (·.fault.map (·.kind)) = some (some .stackOverflow) ∧
      afterOther ((boot [0x45, 0]).setSp 17) (fun t => (t.fault, t.sp)) = some (none, 16) := by decide

/-! ### Writing the value an unlisted address reads as removes the entry -/

theorem test_memory_canonical :
    Memory.set [(3, 1), (9, 2)] 3 0 = [(9, 2)] ∧ Memory.set [(3, 1), (9, 2)] 5 4 = [(3, 1), (5, 4), (9, 2)] := by decide

/-! ### Witnesses: states and operands that meet the hypotheses of each obligation -/

/-- A state that meets the invariant and runs LDI R5,42. -/
theorem boot_ldi_inv : (boot [0x82, 5, 0x2A]).Inv where
  memCanonical := by decide
  general := by decide
  stackPointer := by decide
  programCounter := by decide
  flagValues := by decide
  outputValues := by decide
  faultRecord := fun r h => by cases h

/-- A state that meets the invariant and whose RET at 255 empties the stack. -/
def retState : State := ({ boot [] with mem := [(0, 0x11), (255, 8)] } : State).setSp 255

theorem retState_inv : retState.Inv where
  memCanonical := by decide
  general := by decide
  stackPointer := by decide
  programCounter := by decide
  flagValues := by decide
  outputValues := by decide
  faultRecord := fun r h => by cases h

theorem witness_DecodeReadsBackEncode : OpcodeMap.wf Config.opcodeMap = true := by decide
theorem witness_DecodeAcceptsOnlyEncodings :
    decodeWith Config.opcodeMap (fun k => [(0xA0 : Byte), 7, 2][k]?) = .ok (.add 7 2) ∧ 2 < (Instr.add 7 2).width := by
  decide
theorem witness_ByteOutsideMapIsIllegal :
    (boot [0x83]).enabled = true ∧ (boot [0x83]).memRead (boot [0x83]).pc = some 0x83 ∧
      ∀ op ∈ Op.all, Config.opcodeMap op ≠ 0x83 := by decide
theorem witness_OperandBytesDecideTheStep :
    (boot [0xA0, 0, 10]).enabled = true ∧ (boot [0xA0, 0, 10]).memRead 0 = some (Config.opcodeMap .add) ∧
      (∀ k < 2, (boot [0xA0, 0, 10]).memRead (0 + 1 + k) = [(0 : Byte), 10][k]?) ∧
      ([(0 : Byte), 10].take 2).find? (fun b => !b.isRegister) = some 10 := by decide
theorem witness_OperandBytesDecideTheStep_wellFormed :
    (boot [0xA0, 0, 7]).enabled = true ∧ (boot [0xA0, 0, 7]).memRead 0 = some (Config.opcodeMap .add) ∧
      (∀ k < 2, (boot [0xA0, 0, 7]).memRead (0 + 1 + k) = [(0 : Byte), 7][k]?) ∧ Op.operandsWf .add [0, 7] = true := by
  decide
theorem witness_StepRunsTheDecodedInstruction :
    (boot [0x82, 5, 0x2A]).enabled = true ∧ (boot [0x82, 5, 0x2A]).fetchDecode = .ok (.ldi 5 42) ∧
      ∀ k < (Instr.ldi 5 42).width, (boot [0x82, 5, 0x2A]).memRead (0 + k) = (encode (.ldi 5 42))[k]? := by decide
theorem witness_ProgramCounterIsSetByTheInstruction :
    after (boot [0x46, 1]) (·.fault.isSome) = some true ∧ after (boot [0x54, 7]) (·.fault) = some none := by decide
theorem witness_StepFaultsByTheTable : (boot [0x82, 5, 0x2A]).Inv ∧ (boot [0x82, 5, 0x2A]).enabled = true :=
  ⟨boot_ldi_inv, by decide⟩
/-- Both cases of the statement occur. -/
theorem witness_StepFaultsByTheTable_cases :
    (boot [0x46, 1]).firstFault = some (.stackUnderflow, 256) ∧ (boot [0x82, 5, 0x2A]).firstFault = none := by decide
theorem witness_FaultsArePrecise : after (boot [0x46, 1]) (·.fault.isSome) = some true := by decide
theorem witness_StepsHappenOnlyWhenEnabled :
    after (boot [1]) (·.enabled) = some false ∧ (boot [1]).fetchDecode = .ok .hlt ∧ State.reset.runEntry ≠ none := by
  decide
theorem witness_StoppedCoreWaitsForTheHost_halted : State.reset.halted := ⟨rfl, rfl⟩
theorem witness_StoppedCoreWaitsForTheHost_faulted : ((boot [0]).withFault .illegalOpcode 0).fault ≠ none := by decide
theorem witness_StepKeepsTheInvariant : (boot [0x82, 5, 0x2A]).Inv ∧ ∃ t, step (boot [0x82, 5, 0x2A]) = .next t :=
  ⟨boot_ldi_inv, _, rfl⟩
theorem witness_ReachableStatesMeetTheInvariant : Reachable (State.reset.hostMove .run) := .host .run .reset
/-- A state no run of which is on, so that every move is admitted, and one during a run. -/
theorem witness_HostMovesKeepTheInvariant :
    State.reset.InvWith Config.params ∧ State.reset.enabled = false ∧ (boot [0x82, 5, 0x2A]).InvWith Config.params :=
  ⟨⟨by decide, by decide, by decide, by decide, by decide, by decide, fun r h => by cases h⟩, by decide, boot_ldi_inv⟩
theorem witness_StackEmptiesOnlyByPopOrRet :
    retState.Inv ∧ retState.sp.toNat ≠ 256 ∧ after retState (fun t => t.sp.toNat) = some 256 :=
  ⟨retState_inv, by decide, by decide⟩
theorem witness_FlagsPersistUntilCmpOrReset :
    (boot [0x54, 7]).fetchDecode = .ok (.jmp 7) ∧ after (boot [0x54, 7]) (·.pc) = some 256 ∧
      State.reset.runEntry ≠ none ∧ State.reset.loadImage [1] = .ok { State.reset with mem := [(0, 1)] } := by decide
/-- CMP R0,R1, then JEQ R2 at once. -/
theorem witness_JumpsFollowTheLastCmp :
    ∃ t, (boot [0xA7, 0, 1, 0x55, 2]).fetchDecode = .ok (.cmp 0 1) ∧ step (boot [0xA7, 0, 1, 0x55, 2]) = .next t ∧
      StepsWithoutCmp t t ∧ t.enabled = true ∧ t.fetchDecode = .ok (.jeq 2) :=
  ⟨{ boot [0xA7, 0, 1, 0x55, 2] with pc := 3, fl := 1 }, by decide, rfl, .refl _, by decide, by decide⟩
/-- CMP R0,R1, then LDI R2,9, then JNE R2. -/
theorem witness_JumpsFollowTheLastCmp_between :
    ∃ t u, step (boot [0xA7, 0, 1, 0x82, 2, 9, 0x56, 2]) = .next t ∧ StepsWithoutCmp t u ∧ u.enabled = true ∧
      u.fetchDecode = .ok (.jne 2) :=
  ⟨{ boot [0xA7, 0, 1, 0x82, 2, 9, 0x56, 2] with pc := 3, fl := 1 },
    { (boot [0xA7, 0, 1, 0x82, 2, 9, 0x56, 2]).setReg 2 9 with pc := 6, fl := 1 }, rfl,
    .step (.ldi 2 9) (by decide) (by decide) rfl (.refl _), by decide, by decide⟩
/-- Both sides of the bound. -/
theorem witness_MemoryAccessesAreBounded : State.reset.memRead 255 = some 0 ∧ State.reset.memRead 256 = none := by decide
theorem witness_OnlyPushAndCallWriteMemory :
    after ((boot [0x45, 0]).setReg 0 7) (·.memRead 255) ≠ some ((boot [0x45, 0]).memRead 255) := by decide
theorem witness_RegisterWritersAreExhaustive :
    after (boot [0x82, 5, 0x2A]) (·.reg 5) ≠ some ((boot [0x82, 5, 0x2A]).reg 5) := by decide
theorem witness_RunningFlagWriters :
    after (boot [1]) (·.running) = some false ∧ after (boot [0]) (·.fault.isSome) = some true ∧
      State.reset.runEntry ≠ none := by decide
theorem witness_OutputIsAppendedAndNeverRead : after (boot [0x47, 7]) (·.output) = some [256] := by decide
theorem witness_OnlyTheEqualBitMatters :
    after (boot [0x55, 7]) (·.pc) = some 2 ∧
      (0b100 : Byte).getLsbD Config.flagLayout.e = (boot [0x55, 7]).equalFlag := by decide
theorem witness_LdiImmediateIsTheWholeByte :
    (boot [0x82, 5, 0xFF]).enabled = true ∧ (boot [0x82, 5, 0xFF]).memRead 0 = some 0x82 ∧
      (boot [0x82, 5, 0xFF]).memRead 1 = some (registerByte 5) ∧ (boot [0x82, 5, 0xFF]).memRead 2 = some 0xFF := by decide
theorem witness_HltEndsTheRun :
    ({ boot [] with mem := [(255, 1)], pc := 255 } : State).enabled = true ∧
      ({ boot [] with mem := [(255, 1)], pc := 255 } : State).memRead 255 = some 0x01 ∧
      ({ boot [] with pc := 256 } : State).enabled = true := by decide
/-- The four clauses at their boundaries: 0; 1 and 256; a value of 256 in R0; 257. -/
theorem witness_PushStoresBelowTheStackPointer :
    ((boot []).setSp 0).sp.toNat = 0 ∧ ((boot []).setSp 1).sp.toNat = 1 ∧ (boot []).sp.toNat = 256 ∧
      ((boot []).reg 0).toNat ≤ 255 ∧ 255 < (((boot []).setReg 0 256).reg 0).toNat ∧
      256 < ((boot []).setSp 257).sp.toNat := by decide
/-- Both clauses at their boundary: 256 and 255. -/
theorem witness_PopLoadsTheTopOfStack : 256 ≤ (boot []).sp.toNat ∧ ((boot []).setSp 255).sp.toNat ≤ 255 := by decide
/-- The clauses at their boundaries: stack pointer 0, 1, 256 and 257, program counter 253 and 254. -/
theorem witness_CallPushesTheReturnAddress :
    ((boot []).setSp 0).sp.toNat = 0 ∧ 0 < ((boot []).setSp 1).sp.toNat ∧ (boot []).sp.toNat ≤ 256 ∧
      256 < ((boot []).setSp 257).sp.toNat ∧ ({ boot [] with pc := 253 } : State).pc ≤ 253 ∧
      254 ≤ ({ boot [] with pc := 254 } : State).pc := by decide
theorem witness_RetPopsTheProgramCounter : 256 ≤ (boot []).sp.toNat ∧ retState.sp.toNat ≤ 255 := by decide
/-- PUSH R0 then POP R0 with nothing between; the pushed cell is as PUSH left it. -/
theorem witness_PushThenPopRestores :
    0 < (boot []).sp.toNat ∧ (boot []).sp.toNat ≤ 256 ∧ ((boot []).reg 0).toNat ≤ 255 ∧
      (next? (exec (.push 0) (boot []))).map (·.sp) = some 255 := by decide
theorem witness_CallThenRetReturns :
    0 < (boot []).sp.toNat ∧ (boot []).sp.toNat ≤ 256 ∧ (boot []).pc ≤ 253 ∧
      (next? (exec (.call 0) (boot []))).map (·.sp) = some 255 := by decide
theorem witness_FlagFunctionUnderAnyLayout : FlagLayout.wf ⟨7, 0, 3⟩ = true := by decide
theorem witness_LoadImageCopiesTheBytes :
    (boot []).running = true ∧ ((boot [0]).withFault .illegalOpcode 0).fault ≠ none ∧
      State.reset.running = false ∧ State.reset.fault = none ∧
      256 < 256 + [(1 : Byte)].length ∧ 255 + [(1 : Byte)].length ≤ 256 := by decide
theorem witness_RunEntrySetsRunningAndStackPointer : State.reset.halted := ⟨rfl, rfl⟩
theorem witness_RunsEndHaltedOrFaulted : (boot [0x82, 5, 0x2A]).Inv := boot_ldi_inv
theorem witness_EndedRunsIgnoreMoreFuel : ∀ t, runLoop 1 (boot [1]) ≠ .unfinished t := by
  intro t h
  have : runLoop 1 (boot [1]) = .halted { boot [1] with pc := 1, running := false } := by decide
  rw [this] at h; cases h
theorem witness_BootRunsTheFirstInstruction : (encode (.ldi 0 8) ++ [0x47, 0, 0x01]).length ≤ 256 := by decide
/-- As the first instruction after reset, and at the last address that leaves room. -/
theorem witness_FetchWordIsTheNextStep :
    decodeTableWord 24 0x080082 = some (.ldi 0 8) ∧ (Instr.ldi 0 8).fitsAt State.reset.pc = true ∧
      (Instr.ldi 0 8).fitsAt 253 = true := by decide
theorem witness_MemoriesThatReadAlikeAreEqual : Memory.wf [(0, 1), (255, 7)] = true := by decide
/-- During a run; outside one without a fault; outside one with a fault. -/
theorem witness_HostActsOnlyBetweenRuns :
    (boot [1]).enabled = true ∧ State.reset.enabled = false ∧ State.reset.fault = none ∧
      ((boot [0]).withFault .illegalOpcode 0).enabled = false ∧ ((boot [0]).withFault .illegalOpcode 0).fault ≠ none := by
  decide
theorem witness_ConfiguredStepRunsTheDecodedInstruction :
    otherParams.opcodeMap.wf = true ∧ (boot [0xA2, 0, 1]).enabled = true ∧
      (∀ k < (Instr.add 0 1).width, (boot [0xA2, 0, 1]).memRead (0 + k) = (encodeWith otherParams.opcodeMap (.add 0 1))[k]?) ∧
      (Instr.add 0 1).op ∉ [Op.push, Op.call] ∧ (Instr.add 0 1).op ∉ [Op.cmp, Op.jeq, Op.jne] := by decide
/-- The bound at stack pointers 16 and 17, and an address below the floor after a PUSH that completes. -/
theorem witness_PushAndCallRespectAnyStackFloor :
    (((boot []).setSp 16).sp.toNat : Int) - 1 < otherParams.stackFloor ∧
      (otherParams.stackFloor : Int) ≤ ((boot []).setSp 17).sp.toNat - 1 ∧
      (next? (execWith otherParams (.push 0) ((boot []).setSp 17))).map (·.memRead 15) = some (some 0) ∧
      15 < otherParams.stackFloor := by decide
/-- A state that meets the invariant under the other parameters, its FL the E bit there, and pushes at the floor. -/
def floorState : State := { (boot [0x45, 0]).setSp 16 with fl := 0b10000000 }
theorem floorState_inv : floorState.InvWith otherParams where
  memCanonical := by decide
  general := by decide
  stackPointer := by decide
  programCounter := by decide
  flagValues := by decide
  outputValues := by decide
  faultRecord := fun r h => by cases h
theorem boot_ldi_inv_other : (boot [0x82, 5, 0x2A]).InvWith otherParams where
  memCanonical := by decide
  general := by decide
  stackPointer := by decide
  programCounter := by decide
  flagValues := by decide
  outputValues := by decide
  faultRecord := fun r h => by cases h
theorem witness_ConfiguredStepFaultsByTheTable : floorState.InvWith otherParams ∧ floorState.enabled = true :=
  ⟨floorState_inv, by decide⟩
/-- Both cases of the statement occur. -/
theorem witness_ConfiguredStepFaultsByTheTable_cases :
    floorState.firstFaultWith otherParams = some (.stackOverflow, 16) ∧
      (boot [0x82, 5, 0x2A]).firstFaultWith otherParams = none := by decide
theorem witness_ConfiguredStepKeepsTheInvariant :
    (boot [0x82, 5, 0x2A]).InvWith otherParams ∧ ∃ t, stepWith otherParams (boot [0x82, 5, 0x2A]) = .next t :=
  ⟨boot_ldi_inv_other, _, rfl⟩
/-- JEQ with E set in bit 7, beside FL 1, which has E set in bit 0. -/
theorem witness_FlagPositionsDecideNothingButFl :
    otherParams.flagLayout.wf = true ∧ Config.flagLayout.wf = true ∧
      (1 : Byte).getLsbD Config.flagLayout.e =
        State.equalFlagWith otherParams.flagLayout { boot [0x55, 7] with fl := 0b10000000 } ∧
      afterOther { boot [0x55, 7] with fl := 0b10000000 } (·.pc) = some 256 := by decide
/-- The host's question of one row: the first step after reset runs it. -/
theorem test_fetch_word_first_step :
    after (State.reset.withFetchWord 24 0x2A0582) (fun t => (t.reg 5, t.pc)) = some (42, 3) := by decide

end Sys2Proof.Tests
end

section
/-! PROOFS. The scope of the model (00_scope.md): this hardware is the configured machine at the defaults, and the
configured machine runs the instruction it decodes. -/

namespace Sys2Proof

/-! ### The decoder reads back the encoder's bytes -/

/-- The operand decoder reads back the operand bytes of an instruction (30_encoding.md rule R62). -/
theorem decodeOperands_of_operandBytes {read : Reader} {i : Instr}
    (h : ∀ k, k < i.op.operandCount → read (k + 1) = i.operandBytes[k]?) : decodeOperands read i.op = .ok i := by
  cases i with
  | hlt | ret => rfl
  | prn a | push a | pop a | call a | jeq a | jne a | jmp a => exact decodeR_ok.2 ⟨a, h 0 Nat.one_pos, rfl⟩
  | ldi a imm => exact decodeRI_ok.2 ⟨a, imm, h 0 Nat.two_pos, h 1 Nat.one_lt_two, rfl⟩
  | mul a b | add a b | cmp a b => exact decodeRR_ok.2 ⟨a, b, h 0 Nat.two_pos, h 1 Nat.one_lt_two, rfl⟩

/-- The opcode byte and the operand bytes (30_encoding.md rules R60, R61). -/
theorem Instr.width_eq (i : Instr) : i.width = 1 + i.op.operandCount := rfl

/-- A reader that holds the encoding of an instruction, under a map that gives no byte to two operations, decodes to it. -/
theorem decodeWith_of_encodeWith {m : OpcodeMap} (hm : m.wf = true) {read : Reader} {i : Instr}
    (h : ∀ k, k < i.width → read k = (encodeWith m i)[k]?) : decodeWith m read = .ok i := by
  have hOpcode : read 0 = some (m i.op) := h 0 (by rw [Instr.width_eq]; omega)
  have hOperands : decodeOperands read i.op = .ok i := decodeOperands_of_operandBytes fun k hk =>
    h (k + 1) (by rw [Instr.width_eq]; omega)
  exact decodeWith_ok.2 ⟨m i.op, i.op, hOpcode, OpcodeMap.lookup_map hm i.op, hOperands⟩

end Sys2Proof

namespace Sys2Proof.Machine

/-- The bytes of an instruction at the program counter decode to it. -/
theorem fetchDecodeWith_of_encodeWith {m : OpcodeMap} (hm : m.wf = true) {s : State} {i : Instr}
    (h : ∀ k, k < i.width → s.memRead (s.pc + k) = (encodeWith m i)[k]?) : s.fetchDecodeWith m = .ok i :=
  decodeWith_of_encodeWith hm h

/-! ### Which instructions read a starred parameter -/

/-- Only PUSH and CALL read the stack floor (43_stack_call.md rule R141). -/
theorem execWith_stackFloor {i : Instr} (h : i.op ∉ [Op.push, Op.call]) (p : Params) (floor : Nat) (s : State) :
    execWith { p with stackFloor := floor } i s = execWith p i s := by
  cases i with
  | push a | call a => simp [Instr.op] at h
  | _ => rfl

/-- Only CMP, JEQ and JNE read the flag layout (10_state.md rule R28). -/
theorem execWith_flagLayout {i : Instr} (h : i.op ∉ [Op.cmp, Op.jeq, Op.jne]) (p : Params) (l : FlagLayout) (s : State) :
    execWith { p with flagLayout := l } i s = execWith p i s := by
  cases i with
  | cmp a b | jeq a | jne a => simp [Instr.op] at h
  | _ => rfl

/-- The default parameters make a machine. -/
theorem Config.params_wf : Config.params.wf = true :=
  Bool.and_eq_true_iff.2 ⟨Config.opcodeMap_wf, Config.flagLayout_wf⟩

/-! ### The obligations -/

/-- Settles O51: the decoder reads the encoding back, so the enabled step is the dispatch of that instruction, and the
dispatch reads the floor and the layout in the arms named only. -/
theorem configuredStepRunsTheDecodedInstruction : Obligations.ConfiguredStepRunsTheDecodedInstruction := by
  intro p s i hm he hBytes
  have hDecoded : s.fetchDecodeWith p.opcodeMap = .ok i := fetchDecodeWith_of_encodeWith hm hBytes
  exact ⟨hDecoded, stepWith_of_decoded he hDecoded, fun h floor => execWith_stackFloor h p floor s,
    fun h l => execWith_flagLayout h p l s⟩

/-- Settles O50: the defaults are those of decisions D3, D4 and D6, and the dispatch, the step and the run agree with the
configured ones there. -/
theorem stepIsTheConfiguredStepAtTheDefaults : Obligations.StepIsTheConfiguredStepAtTheDefaults :=
  ⟨fun _ => rfl, rfl, rfl, Config.params_wf, fun s =>
    ⟨fun i => exec_eq_execWith i s, step_eq_stepWith s, fun fuel => runLoop_eq_runLoopWith fuel s⟩⟩

end Sys2Proof.Machine
end

section
/-! PROOFS. The state of the CORE (10_state.md): the invariant of reachable states, who writes which element, and which
elements decide nothing. Every proof about a step starts from `stepWith_inversion`, which says once what a step that
answers a next state has done. -/

namespace Sys2Proof.Machine

/-! ### Memory: the canonical form is unique -/

/-- The first cell of a canonical memory has the least address that does not read as unlisted. -/
theorem Memory.head_le_of_get {lo a : Nat} {c : Host.Cell} {m : Memory} (hm : Memory.wfFrom lo (c :: m) = true)
    (ha : Memory.get (c :: m) a ≠ Memory.unlisted) : c.1 ≤ a := by
  by_contra hlt
  have hc : Memory.wfFrom c.1 (c :: m) = true := Memory.wfFrom_cons.2 ⟨le_rfl, (Memory.wfFrom_cons.1 hm).2⟩
  exact ha (Memory.get_below (Nat.lt_of_not_le hlt) hc)

theorem Memory.get_head (c : Host.Cell) (m : Memory) : Memory.get (c :: m) c.1 = c.2 := if_pos rfl

theorem Memory.get_tail {c : Host.Cell} {a : Nat} (h : c.1 ≠ a) (m : Memory) :
    Memory.get (c :: m) a = Memory.get m a := if_neg h

/-- The first cell of a canonical memory is listed, so it does not read as unlisted. -/
theorem Memory.get_head_ne {lo : Nat} {c : Host.Cell} {m : Memory} (hm : Memory.wfFrom lo (c :: m) = true) :
    Memory.get (c :: m) c.1 ≠ Memory.unlisted := by
  rw [Memory.get_head]; exact (Memory.wfFrom_cons.1 hm).2.2.1

/-- Canonical memories from `lo` on that read alike are equal. -/
theorem Memory.eq_of_get {lo : Nat} {m m' : Memory} (hm : Memory.wfFrom lo m = true) (hm' : Memory.wfFrom lo m' = true)
    (h : ∀ a, m.get a = m'.get a) : m = m' := by
  induction m generalizing lo m' with
  | nil =>
    cases m' with
    | nil => rfl
    | cons c' m' => exact absurd (h c'.1).symm (Memory.get_head_ne hm')
  | cons c m ih =>
    cases m' with
    | nil => exact absurd (h c.1) (Memory.get_head_ne hm)
    | cons c' m' =>
      have haddr : c.1 = c'.1 := Nat.le_antisymm
        (Memory.head_le_of_get hm (by rw [h]; exact Memory.get_head_ne hm'))
        (Memory.head_le_of_get hm' (by rw [← h]; exact Memory.get_head_ne hm))
      have hbyte : c.2 = c'.2 := by rw [← Memory.get_head c m, h, haddr, Memory.get_head]
      obtain ⟨-, -, -, ht⟩ := Memory.wfFrom_cons.1 hm
      obtain ⟨-, -, -, ht'⟩ := Memory.wfFrom_cons.1 hm'
      rw [← haddr] at ht'
      have htail : ∀ a, Memory.get m a = Memory.get m' a := by
        intro a
        by_cases ha : a < c.1 + 1
        · rw [Memory.get_below ha ht, Memory.get_below ha ht']
        · rw [← Memory.get_tail (c := c) (by omega) m, h, Memory.get_tail (by omega)]
      rw [Prod.ext haddr hbyte, ih ht ht' htail]

/-! ### The place of a decoded instruction -/

/-- The operand decoder reads the last operand byte of the operation. -/
theorem decodeOperands_last {read : Reader} {op : Op} {i : Instr} (h : decodeOperands read op = .ok i)
    (h0 : read 0 ≠ none) : read op.operandCount ≠ none := by
  cases op with
  | hlt | ret => exact h0
  | ldi =>
    obtain ⟨_, _, _, h2, _⟩ := decodeRI_ok.1 h
    exact Option.ne_none_iff_exists'.2 ⟨_, h2⟩
  | mul | add | cmp =>
    obtain ⟨_, _, _, h2, _⟩ := decodeRR_ok.1 h
    exact Option.ne_none_iff_exists'.2 ⟨_, h2⟩
  | prn | push | pop | call | jeq | jne | jmp =>
    obtain ⟨_, h1, _⟩ := decodeR_ok.1 h
    exact Option.ne_none_iff_exists'.2 ⟨_, h1⟩

/-- An instruction that is decoded lies in memory as a whole (20_memory.md rule R46). -/
theorem fetchDecodeWith_fits {m : OpcodeMap} {s : State} {i : Instr} (h : s.fetchDecodeWith m = .ok i) :
    s.pc + i.width ≤ 256 := by
  obtain ⟨opc, op, h0, -, hops⟩ := decodeWith_ok.1 h
  have hlast := decodeOperands_last hops (by rw [h0]; exact Option.some_ne_none _)
  rw [Ne, State.memRead_eq_none, ← decodeOperands_op hops] at hlast
  rw [Instr.width_eq]; omega

/-! ### What a step that answers a next state has done -/

/-- `t` is `s` with a fault recorded that a step can raise (60_exceptions.md rules R202, R206). -/
def State.faultsTo (s t : State) : Prop := ∃ k a, k ≠ .imageTooLarge ∧ t = s.withFault k a

theorem State.faultsTo_of_raise {s t : State} {k : FaultKind} {a : Nat} (hk : k ≠ .imageTooLarge)
    (h : s.raise k a = .next t) : s.faultsTo t := by
  cases h; exact ⟨k, a, hk, rfl⟩

/-- `s` with a byte pushed: what PUSH and CALL do before they set the program counter (43_stack_call.md rules R143, R145). -/
def State.pushByte (s : State) (v : Byte) : State :=
  { s.setSp (spDown s.sp) with mem := s.mem.set (s.sp.toNat - 1) v }

@[simp] theorem State.pushByte_pc (s : State) (v : Byte) : (s.pushByte v).pc = s.pc := rfl
@[simp] theorem State.pushByte_fl (s : State) (v : Byte) : (s.pushByte v).fl = s.fl := rfl
@[simp] theorem State.pushByte_running (s : State) (v : Byte) : (s.pushByte v).running = s.running := rfl
@[simp] theorem State.pushByte_fault (s : State) (v : Byte) : (s.pushByte v).fault = s.fault := rfl
@[simp] theorem State.pushByte_output (s : State) (v : Byte) : (s.pushByte v).output = s.output := rfl
@[simp] theorem State.pushByte_sp (s : State) (v : Byte) : (s.pushByte v).sp = spDown s.sp := rfl

theorem State.pushByte_reg_other (s : State) (v : Byte) {j : RegIdx} (h : j ≠ Config.spIndex) :
    (s.pushByte v).reg j = s.reg j := s.setSp_reg_other _ h

/-- The instructions as relations between the state before and the state after, where they complete without a fault: the
guards of the stack instructions, and the effects in the order of the rules. -/
inductive Completes (l : FlagLayout) (s : State) : Instr → State → Prop where
  | ldi (a : RegIdx) (imm : Byte) : Completes l s (.ldi a imm) ((s.setReg a (byteValue imm)).sequence (.seq 3))
  | prn (a : RegIdx) : Completes l s (.prn a) ((s.emit (s.reg a)).sequence (.seq 2))
  | hlt : Completes l s .hlt ((s.setRunning false).sequence (.seq 1))
  | mul (a b : RegIdx) :
      Completes l s (.mul a b) ((s.setReg a (mulMod256 (s.reg a) (s.reg b))).sequence (.seq 3))
  | add (a b : RegIdx) :
      Completes l s (.add a b) ((s.setReg a (addMod256 (s.reg a) (s.reg b))).sequence (.seq 3))
  | push (a : RegIdx) (room : s.sp.toNat ≠ 0) (inMemory : s.sp.toNat ≤ 256)
      (isByte : ((s.setSp (spDown s.sp)).reg a).toNat < 256) :
      Completes l s (.push a) ((s.pushByte (((s.setSp (spDown s.sp)).reg a).setWidth 8)).sequence (.seq 2))
  | pop (a : RegIdx) (notEmpty : s.sp.toNat < 256) :
      Completes l s (.pop a) (((s.setReg a (byteValue (s.mem.get s.sp.toNat))).setSp
        (spUp (s.setReg a (byteValue (s.mem.get s.sp.toNat))).sp)).sequence (.seq 2))
  | call (a : RegIdx) (room : s.sp.toNat ≠ 0) (inMemory : s.sp.toNat ≤ 256) (returns : s.pc ≤ 253) :
      Completes l s (.call a) ((s.pushByte (BitVec.ofNat 8 (s.pc + 2))).sequence
        (.target ((s.setSp (spDown s.sp)).reg a).toNat))
  | ret (notEmpty : s.sp.toNat < 256) :
      Completes l s .ret ((s.sequence (.target (s.mem.get s.sp.toNat).toNat)).setSp (spUp s.sp))
  | cmp (a b : RegIdx) : Completes l s (.cmp a b) ((s.setFl (flagsWith l (s.reg a) (s.reg b))).sequence (.seq 3))
  | jeq (a : RegIdx) : Completes l s (.jeq a) (s.sequence (if s.equalFlagWith l then s.targetOf a else .seq 2))
  | jne (a : RegIdx) : Completes l s (.jne a) (s.sequence (if s.equalFlagWith l then .seq 2 else s.targetOf a))
  | jmp (a : RegIdx) : Completes l s (.jmp a) (s.sequence (s.targetOf a))

section Inversion

variable {p : Params} {floor : Nat} {l : FlagLayout} {a : RegIdx} {i : Instr} {s t : State}

theorem execPushAt_cases (h : execPushAt floor a s = .next t) : s.faultsTo t ∨ Completes l s (.push a) t := by
  by_cases hfloor : s.sp.toNat ≤ floor
  · rw [execPushAt_overflow hfloor] at h
    exact .inl (State.faultsTo_of_raise (by decide) h)
  rw [execPushAt_eq (Nat.lt_of_not_le hfloor)] at h
  by_cases hmem : s.sp.toNat ≤ 256
  · by_cases hv : ((s.setSp (spDown s.sp)).reg a).toNat < 256
    · rw [execPush_next (by omega) hmem hv] at h
      cases h; exact .inr (.push a (by omega) hmem hv)
    · rw [execPush_refused (by omega) hmem (Nat.le_of_not_lt hv)] at h
      cases h
  · rw [execPush_outOfBounds (Nat.lt_of_not_le hmem)] at h
    exact .inl (State.faultsTo_of_raise (by decide) h)

theorem execPop_cases (h : execPop a s = .next t) : s.faultsTo t ∨ Completes l s (.pop a) t := by
  by_cases hsp : s.sp.toNat < 256
  · rw [execPop_next hsp] at h
    cases h; exact .inr (.pop a hsp)
  · rw [execPop_underflow (Nat.le_of_not_lt hsp)] at h
    exact .inl (State.faultsTo_of_raise (by decide) h)

theorem execCallAt_cases (h : execCallAt floor a s = .next t) : s.faultsTo t ∨ Completes l s (.call a) t := by
  by_cases hfloor : s.sp.toNat ≤ floor
  · rw [execCallAt_overflow hfloor] at h
    exact .inl (State.faultsTo_of_raise (by decide) h)
  rw [execCallAt_eq (Nat.lt_of_not_le hfloor)] at h
  by_cases hpc : s.pc ≤ 253
  · by_cases hmem : s.sp.toNat ≤ 256
    · rw [execCall_next (by omega) hmem hpc] at h
      cases h; exact .inr (.call a (by omega) hmem hpc)
    · rw [execCall_outOfBounds (Nat.lt_of_not_le hmem) hpc] at h
      exact .inl (State.faultsTo_of_raise (by decide) h)
  · rw [execCall_noReturn (by omega) (Nat.lt_of_not_le hpc)] at h
    exact .inl (State.faultsTo_of_raise (by decide) h)

theorem execRet_cases (h : execRet s = .next t) : s.faultsTo t ∨ Completes l s .ret t := by
  by_cases hsp : s.sp.toNat < 256
  · rw [execRet_next hsp] at h
    cases h; exact .inr (.ret hsp)
  · rw [execRet_underflow (Nat.le_of_not_lt hsp)] at h
    exact .inl (State.faultsTo_of_raise (by decide) h)

/-- Only the stack instructions fault once they are decoded (40_dispatch_loop.md rule R85). -/
theorem execWith_cases (h : execWith p i s = .next t) :
    (i.op ∈ [Op.push, Op.pop, Op.call, Op.ret] ∧ s.faultsTo t) ∨ Completes p.flagLayout s i t := by
  cases i with
  | ldi a imm => cases h; exact .inr (.ldi a imm)
  | prn a => cases h; exact .inr (.prn a)
  | hlt => cases h; exact .inr .hlt
  | mul a b => cases h; exact .inr (.mul a b)
  | add a b => cases h; exact .inr (.add a b)
  | push a => exact (execPushAt_cases h).imp_left fun hf => ⟨by simp [Instr.op], hf⟩
  | pop a => exact (execPop_cases h).imp_left fun hf => ⟨by simp [Instr.op], hf⟩
  | call a => exact (execCallAt_cases h).imp_left fun hf => ⟨by simp [Instr.op], hf⟩
  | ret => exact (execRet_cases h).imp_left fun hf => ⟨by simp [Instr.op], hf⟩
  | cmp a b => cases h; exact .inr (.cmp a b)
  | jeq a => cases h; exact .inr (.jeq a)
  | jne a => cases h; exact .inr (.jne a)
  | jmp a => cases h; exact .inr (.jmp a)

/-- A step that answers a next state was enabled, and either recorded a fault, its instruction if decoded being one of the
stack, or completed the instruction it decoded. -/
theorem stepWith_inversion (h : stepWith p s = .next t) :
    s.enabled = true ∧
      ((s.faultsTo t ∧ ∀ i, s.fetchDecodeWith p.opcodeMap = .ok i → i.op ∈ [Op.push, Op.pop, Op.call, Op.ret]) ∨
       ∃ i, s.fetchDecodeWith p.opcodeMap = .ok i ∧ Completes p.flagLayout s i t) := by
  obtain ⟨he, ⟨e, hd, hr⟩ | ⟨i, hd, hx⟩⟩ := stepWith_cases h
  · refine ⟨he, .inl ⟨raiseDecode_next hr, fun i hi => ?_⟩⟩
    rw [hd] at hi; cases hi
  · refine ⟨he, (execWith_cases hx).imp (fun ⟨hop, hf⟩ => ⟨hf, fun j hj => ?_⟩) fun hc => ⟨i, hd, hc⟩⟩
    rw [hd] at hj; cases hj; exact hop

theorem step_inversion (h : step s = .next t) :
    s.enabled = true ∧
      ((s.faultsTo t ∧ ∀ i, s.fetchDecode = .ok i → i.op ∈ [Op.push, Op.pop, Op.call, Op.ret]) ∨
       ∃ i, s.fetchDecode = .ok i ∧ Completes Config.flagLayout s i t) :=
  stepWith_inversion (p := Config.params) (step_eq_stepWith s ▸ h)

end Inversion

/-! ### Frames: what a completed instruction leaves -/

/-- The registers an instruction writes (10_state.md rule R24). -/
def Instr.writes : Instr → List RegIdx
  | .ldi a _ => [a]
  | .mul a _ => [a]
  | .add a _ => [a]
  | .pop a => [a, Config.spIndex]
  | .push _ => [Config.spIndex]
  | .call _ => [Config.spIndex]
  | .ret => [Config.spIndex]
  | .prn _ => []
  | .hlt => []
  | .cmp _ _ => []
  | .jeq _ => []
  | .jne _ => []
  | .jmp _ => []

theorem State.setReg_sp (s : State) (i : RegIdx) (v : RegVal) :
    (s.setReg i v).sp = if Config.spIndex = i then v else s.sp := s.setReg_reg i Config.spIndex v

section Frames

variable {l : FlagLayout} {i : Instr} {s t : State}

/-- A completed instruction writes the registers `Instr.writes` lists, and no other. -/
theorem Completes.sameRegsBut (h : Completes l s i t) : s.sameRegsBut t (Instr.writes i) := by
  intro j hj
  cases h with
  | ldi a imm => simpa using s.setReg_reg_other _ (List.ne_of_not_mem_cons hj)
  | mul a b | add a b => simpa using s.setReg_reg_other _ (List.ne_of_not_mem_cons hj)
  | push a | call a => simpa using s.pushByte_reg_other _ (List.ne_of_not_mem_cons hj)
  | pop a =>
    obtain ⟨ha, hsp⟩ : j ≠ a ∧ j ≠ Config.spIndex := by simpa [Instr.writes] using hj
    rw [State.sequence_reg, State.setSp_reg_other _ _ hsp, State.setReg_reg_other _ _ ha]
  | ret =>
    rw [State.setSp_reg_other _ _ (List.ne_of_not_mem_cons hj), State.sequence_reg]
  | prn | hlt | cmp | jeq | jne | jmp => simp

/-- A completed instruction records no fault and clears none. -/
theorem Completes.fault_eq (h : Completes l s i t) : t.fault = s.fault := by
  cases h <;> simp

/-- HLT alone writes `running` (10_state.md rule R30). -/
theorem Completes.running_eq (h : Completes l s i t) : t.running = if i = .hlt then false else s.running := by
  cases h <;> simp

/-- CMP alone writes FL (42_alu.md rule R125). -/
theorem Completes.fl_eq (h : Completes l s i t) (hi : i.op ≠ .cmp) : t.fl = s.fl := by
  cases h with
  | cmp a b => exact absurd rfl hi
  | _ => simp

/-- PRN alone emits (10_state.md rule R32). -/
theorem Completes.output_eq (h : Completes l s i t) (hi : i.op ≠ .prn) : t.output = s.output := by
  cases h with
  | prn a => exact absurd rfl hi
  | _ => simp

end Frames

/-! ### The invariant: one rule per operation on the state -/

section Invariant

variable {p : Params} {s t : State}

theorem State.InvWith.reg_le (hs : s.InvWith p) (i : RegIdx) : (s.reg i).toNat ≤ 256 := by
  by_cases hi : i = Config.spIndex
  · rw [hi]; exact hs.stackPointer
  · exact Nat.le_succ_of_le (hs.general i hi)

/-- Where no fault is recorded, nothing has to be said of a record. -/
theorem State.no_record (hf : s.fault = none) {r : FaultRecord} (hr : s.fault = some r) : False := by
  rw [hf] at hr; cases hr

theorem State.InvWith.withMem (hs : s.InvWith p) (hf : s.fault = none) {m : Memory} (hm : m.wf = true) :
    ({ s with mem := m } : State).InvWith p :=
  { hs with memCanonical := hm, faultRecord := fun _ hr => (State.no_record hf hr).elim }

/-- Register 7 may hold 256, the others a byte. -/
theorem State.InvWith.setReg (hs : s.InvWith p) {i : RegIdx} {v : RegVal}
    (hgen : i ≠ Config.spIndex → v.toNat ≤ 255) (hsp : i = Config.spIndex → v.toNat ≤ 256) :
    (s.setReg i v).InvWith p where
  memCanonical := hs.memCanonical
  general j hj := by
    rw [State.setReg_reg]; split
    · next e => exact hgen (e ▸ hj)
    · exact hs.general j hj
  stackPointer := by
    rw [State.setReg_sp]; split
    · next e => exact hsp e.symm
    · exact hs.stackPointer
  programCounter := hs.programCounter
  flagValues := hs.flagValues
  outputValues := hs.outputValues
  faultRecord := hs.faultRecord

theorem State.InvWith.setReg_byte (hs : s.InvWith p) (i : RegIdx) {v : RegVal} (hv : v.toNat < 256) :
    (s.setReg i v).InvWith p :=
  hs.setReg (fun _ => Nat.le_of_lt_succ hv) (fun _ => Nat.le_of_lt hv)

theorem State.InvWith.setSp (hs : s.InvWith p) {v : RegVal} (hv : v.toNat ≤ 256) : (s.setSp v).InvWith p :=
  hs.setReg (fun h => absurd rfl h) (fun _ => hv)

theorem State.InvWith.setFl (hs : s.InvWith p) {v : Byte}
    (hv : v ∈ [0, bitByte p.flagLayout.e, bitByte p.flagLayout.g, bitByte p.flagLayout.l]) : (s.setFl v).InvWith p :=
  { hs with flagValues := hv }

theorem State.InvWith.setRunning (hs : s.InvWith p) (hf : s.fault = none) (b : Bool) : (s.setRunning b).InvWith p :=
  { hs with faultRecord := fun _ hr => (State.no_record hf hr).elim }

theorem State.InvWith.emit (hs : s.InvWith p) {v : RegVal} (hv : v.toNat ≤ 256) : (s.emit v).InvWith p :=
  { hs with
    outputValues := fun w hw => by
      obtain hw | hw := List.mem_append.1 hw
      · exact hs.outputValues w hw
      · rw [List.mem_singleton.1 hw]; exact hv }

theorem State.InvWith.withPc (hs : s.InvWith p) (hf : s.fault = none) {n : Nat} (hn : n ≤ 256) :
    ({ s with pc := n } : State).InvWith p :=
  { hs with
    programCounter := hn
    faultRecord := fun _ hr => (State.no_record hf hr).elim }

theorem State.InvWith.sequence (hs : s.InvWith p) (hf : s.fault = none) {n : NextPc} (hn : (s.sequence n).pc ≤ 256) :
    (s.sequence n).InvWith p := by
  cases n with
  | seq w | target v => exact hs.withPc hf hn
  | hold => exact hs

theorem State.InvWith.pushByte (hs : s.InvWith p) (hf : s.fault = none) (h0 : s.sp.toNat ≠ 0) (v : Byte) :
    (s.pushByte v).InvWith p := by
  have hsp := hs.stackPointer
  have ha : s.sp.toNat - 1 < 256 := by omega
  have hd : (spDown s.sp).toNat ≤ 256 := by rw [spDown_toNat h0]; omega
  exact (hs.setSp hd).withMem hf (Memory.wf_set hs.memCanonical ha v)

/-- A fault that a step records while the core runs is a true record. -/
theorem State.InvWith.faultsTo (hs : s.InvWith p) (hr : s.running = true) (h : s.faultsTo t) : t.InvWith p := by
  obtain ⟨k, a, hk, rfl⟩ := h
  exact { hs with faultRecord := fun r e => by cases e; exact ⟨hr, hk, rfl, rfl, rfl⟩ }

theorem flagsWith_mem (l : FlagLayout) (va vb : RegVal) :
    flagsWith l va vb ∈ [0, bitByte l.e, bitByte l.g, bitByte l.l] := by
  obtain ⟨-, h⟩ | ⟨-, h⟩ | ⟨-, h⟩ := flagsWith_cases l va vb <;> simp [h]

theorem addMod256_lt (va vb : RegVal) : (addMod256 va vb).toNat < 256 := by
  rw [addMod256_toNat]; exact Nat.mod_lt _ (by decide)

theorem mulMod256_lt (va vb : RegVal) : (mulMod256 va vb).toNat < 256 := by
  rw [mulMod256_toNat]; exact Nat.mod_lt _ (by decide)

theorem byteValue_lt (b : Byte) : (byteValue b).toNat < 256 := by
  rw [byteValue_toNat]; exact b.isLt

/-- POP's stack pointer before its increment, R7 being the operand or not (decision D8), is below 256. -/
theorem State.setReg_sp_lt (s : State) (a : RegIdx) {v : RegVal} (hv : v.toNat < 256) (hsp : s.sp.toNat < 256) :
    (s.setReg a v).sp.toNat < 256 := by
  rw [State.setReg_sp]; split
  · exact hv
  · exact hsp

/-- An instruction that lies in memory and completes keeps the invariant. -/
theorem State.InvWith.completes (hs : s.InvWith p) (hf : s.fault = none) {i : Instr} (hfit : s.pc + i.width ≤ 256)
    (h : Completes p.flagLayout s i t) : t.InvWith p := by
  cases h with
  | ldi a imm => exact (hs.setReg_byte a (byteValue_lt imm)).sequence hf hfit
  | prn a => exact (hs.emit (hs.reg_le a)).sequence hf hfit
  | hlt => exact (hs.setRunning hf false).sequence hf hfit
  | mul a b => exact (hs.setReg_byte a (mulMod256_lt _ _)).sequence hf hfit
  | add a b => exact (hs.setReg_byte a (addMod256_lt _ _)).sequence hf hfit
  | push a room => exact (hs.pushByte hf room _).sequence hf hfit
  | pop a notEmpty =>
    have hlt := s.setReg_sp_lt a (byteValue_lt (s.mem.get s.sp.toNat)) notEmpty
    have hup := spUp_toNat (Nat.lt_trans hlt (by decide))
    exact ((hs.setReg_byte a (byteValue_lt _)).setSp (by omega)).sequence hf hfit
  | call a room =>
    have hpush := hs.pushByte hf room (BitVec.ofNat 8 (s.pc + 2))
    exact hpush.sequence hf (hpush.reg_le a)
  | ret notEmpty =>
    have hup := spUp_toNat (Nat.lt_trans notEmpty (by decide))
    have hbyte : (s.mem.get s.sp.toNat).toNat ≤ 256 := Nat.le_of_lt (BitVec.isLt _)
    exact (hs.withPc hf hbyte).setSp (by omega)
  | cmp a b => exact (hs.setFl (flagsWith_mem _ _ _)).sequence hf hfit
  | jeq a => exact hs.sequence hf (by split; exacts [hs.reg_le a, hfit])
  | jne a => exact hs.sequence hf (by split; exacts [hfit, hs.reg_le a])
  | jmp a => exact hs.sequence hf (hs.reg_le a)

/-! ### The invariant: reset and the host's moves -/

theorem State.reset_invWith (p : Params) : State.reset.InvWith p where
  memCanonical := rfl
  general := by decide
  stackPointer := by decide
  programCounter := by decide
  flagValues := List.mem_cons_self
  outputValues := by simp [State.reset]
  faultRecord r hr := by cases hr

theorem State.InvWith.hostReset (hs : s.InvWith p) : s.hostReset.InvWith p :=
  { State.reset_invWith p with outputValues := hs.outputValues }

theorem State.loadImage_ok {bs : List Byte} {start : Nat} (h : s.loadImage bs start = .ok t) :
    s.fault = none ∧ start + bs.length ≤ Config.memCapacity ∧ t = { s with mem := s.mem.setBytes start bs } := by
  unfold State.loadImage at h
  split at h
  · cases h
  · next hadm =>
    split at h
    · cases h
    · next hlen =>
      cases h
      refine ⟨?_, Nat.le_of_not_lt hlen, rfl⟩
      simp_all

theorem State.runEntry_some (h : s.runEntry = some t) : s.fault = none ∧ t = s.enterRun := by
  unfold State.runEntry at h
  split at h
  · cases h
  · cases h; simp_all

theorem State.InvWith.loadImage (hs : s.InvWith p) {bs : List Byte} {start : Nat} (h : s.loadImage bs start = .ok t) :
    t.InvWith p := by
  obtain ⟨hf, hlen, rfl⟩ := State.loadImage_ok h
  exact hs.withMem hf (Memory.wf_setBytes hs.memCanonical bs hlen)

theorem State.InvWith.runEntry (hs : s.InvWith p) (h : s.runEntry = some t) : t.InvWith p := by
  obtain ⟨hf, rfl⟩ := State.runEntry_some h
  exact (hs.setRunning hf true).setSp (by decide)

end Invariant

/-! ### The invariant: the obligations -/

/-- Settles O54: a fault leaves a true record, and every completed instruction keeps the invariant, since an instruction
that is decoded lies in memory. -/
theorem configuredStepKeepsTheInvariant : Obligations.ConfiguredStepKeepsTheInvariant := by
  intro p s t hs h
  obtain ⟨he, hcases⟩ := stepWith_inversion h
  obtain ⟨hrun, hnone⟩ := State.enabled_iff.1 he
  obtain ⟨hfault, -⟩ | ⟨i, hd, hc⟩ := hcases
  · exact hs.faultsTo hrun hfault
  · exact hs.completes hnone (fetchDecodeWith_fits hd) hc

/-- Settles O13: the step is the configured one at the defaults. -/
theorem stepKeepsTheInvariant : Obligations.StepKeepsTheInvariant := fun s t hs h =>
  configuredStepKeepsTheInvariant Config.params s t hs (step_eq_stepWith s ▸ h)

/-- Settles O56: an admitted move writes only values of the invariant, and any other move changes nothing. -/
theorem hostMovesKeepTheInvariant : Obligations.HostMovesKeepTheInvariant := by
  intro p s op hs
  cases op with
  | reset =>
    obtain h | h := hostMove_reset_cases s <;> rw [h]
    · exact hs
    · exact hs.hostReset
  | loadImage bs start =>
    simp only [State.hostMove]
    split
    · next h => exact hs.loadImage h
    · exact hs
    · exact hs
  | run =>
    rw [State.hostMove]
    cases h : s.runEntry with
    | none => exact hs
    | some t => exact hs.runEntry h

/-- Settles O12: the reset state meets the invariant under any parameters, the defaults among them. -/
theorem resetMeetsTheInvariant : Obligations.ResetMeetsTheInvariant := State.reset_invWith Config.params

/-- Settles O14, by induction on how the state is reached. -/
theorem reachableStatesMeetTheInvariant : Obligations.ReachableStatesMeetTheInvariant := by
  intro s h
  induction h with
  | reset => exact resetMeetsTheInvariant
  | step _ hstep ih => exact stepKeepsTheInvariant _ _ ih hstep
  | host op _ ih => exact hostMovesKeepTheInvariant Config.params _ op ih

/-- Settles O48, by induction on the lists: their first cells have the least listed address. -/
theorem memoriesThatReadAlikeAreEqual : Obligations.MemoriesThatReadAlikeAreEqual := fun _ _ hm hm' h =>
  Memory.eq_of_get hm hm' h

/-! ### Who writes the stack pointer, the registers and the running flag -/

/-- A byte written to a register does not bring the stack pointer to 256. -/
theorem State.setReg_sp_ne_256 (s : State) (a : RegIdx) {v : RegVal} (hv : v.toNat < 256) (hsp : s.sp.toNat ≠ 256) :
    (s.setReg a v).sp.toNat ≠ 256 := by
  rw [State.setReg_sp]; split
  · exact Nat.ne_of_lt hv
  · exact hsp

/-- A push does not bring the stack pointer to 256, because it starts at 256 at most. -/
theorem spDown_ne_256 {sp : RegVal} (room : sp.toNat ≠ 0) (inMemory : sp.toNat ≤ 256) : (spDown sp).toNat ≠ 256 := by
  rw [spDown_toNat room]; omega

/-- The instructions that can bring the stack pointer to 256, and from where. -/
theorem Completes.stack_empties {l : FlagLayout} {s t : State} {i : Instr} (h : Completes l s i t)
    (hs : s.sp.toNat ≠ 256) (ht : t.sp.toNat = 256) :
    (s.sp.toNat = 255 ∧ (i = .ret ∨ ∃ a, a ≠ Config.spIndex ∧ i = .pop a)) ∨
    (i = .pop Config.spIndex ∧ s.memRead s.sp.toNat = some 255) := by
  cases h with
  | ldi a imm => exact absurd ht (s.setReg_sp_ne_256 a (byteValue_lt imm) hs)
  | mul a b => exact absurd ht (s.setReg_sp_ne_256 a (mulMod256_lt _ _) hs)
  | add a b => exact absurd ht (s.setReg_sp_ne_256 a (addMod256_lt _ _) hs)
  | push a room inMemory | call a room inMemory => exact absurd ht (spDown_ne_256 room inMemory)
  | prn | hlt | cmp | jeq | jne | jmp => exact absurd (by simpa using ht) hs
  | ret notEmpty =>
    have hup : (spUp s.sp).toNat = 256 := ht
    rw [spUp_toNat (by omega)] at hup
    exact .inl ⟨by omega, .inl rfl⟩
  | pop a notEmpty =>
    have hlt := s.setReg_sp_lt a (byteValue_lt (s.mem.get s.sp.toNat)) notEmpty
    have hup : (spUp (s.setReg a (byteValue (s.mem.get s.sp.toNat))).sp).toNat = 256 := ht
    rw [spUp_toNat (by omega), State.setReg_sp] at hup
    by_cases ha : a = Config.spIndex
    · rw [if_pos ha.symm, byteValue_toNat] at hup
      have hbyte : s.mem.get s.sp.toNat = 255 := BitVec.eq_of_toNat_eq (Nat.succ.inj hup)
      exact .inr ⟨by rw [ha], State.memRead_eq_some.2 ⟨notEmpty, hbyte⟩⟩
    · rw [if_neg (Ne.symm ha)] at hup
      exact .inl ⟨by omega, .inr ⟨a, ha, rfl⟩⟩

/-- Settles O15: a fault keeps the stack pointer, and of the instructions only RET and POP can bring it to 256. -/
theorem stackEmptiesOnlyByPopOrRet : Obligations.StackEmptiesOnlyByPopOrRet := by
  intro s t _ h hs ht
  obtain ⟨-, ⟨⟨k, a, -, rfl⟩, -⟩ | ⟨i, hd, hc⟩⟩ := step_inversion h
  · exact absurd ht hs
  · rw [hd]; simpa using hc.stack_empties hs ht

/-- Settles O20: the register is one that the completed instruction writes, and `Instr.writes` says which do. -/
theorem registerWritersAreExhaustive : Obligations.RegisterWritersAreExhaustive := by
  intro s t j h hj
  obtain ⟨-, ⟨⟨k, a, -, rfl⟩, -⟩ | ⟨i, hd, hc⟩⟩ := step_inversion h
  · exact absurd rfl hj
  have hmem : j ∈ Instr.writes i := by_contra fun hout => hj (hc.sameRegsBut j hout)
  rw [hd]
  cases i with
  | ldi a imm => cases List.mem_singleton.1 hmem; exact .inl ⟨imm, rfl⟩
  | add a b => cases List.mem_singleton.1 hmem; exact .inr (.inl ⟨b, rfl⟩)
  | mul a b => cases List.mem_singleton.1 hmem; exact .inr (.inr (.inl ⟨b, rfl⟩))
  | pop a =>
    obtain rfl | rfl : j = a ∨ j = Config.spIndex := by simpa [Instr.writes] using hmem
    · exact .inr (.inr (.inr (.inl rfl)))
    · exact .inr (.inr (.inr (.inr ⟨rfl, .inr ⟨a, .inl rfl⟩⟩)))
  | push a => exact .inr (.inr (.inr (.inr ⟨List.mem_singleton.1 hmem, .inr ⟨a, .inr (.inl rfl)⟩⟩)))
  | call a => exact .inr (.inr (.inr (.inr ⟨List.mem_singleton.1 hmem, .inr ⟨a, .inr (.inr rfl)⟩⟩)))
  | ret => exact .inr (.inr (.inr (.inr ⟨List.mem_singleton.1 hmem, .inl rfl⟩)))
  | prn | hlt | cmp | jeq | jne | jmp => exact absurd hmem List.not_mem_nil

/-- Settles O21: among completed instructions HLT alone clears `running`, and a fault keeps it. -/
theorem runningFlagWriters : Obligations.RunningFlagWriters := by
  intro s
  refine ⟨fun t h => ?_, fun t h => ?_, rfl⟩
  · obtain ⟨he, hcases⟩ := step_inversion h
    obtain ⟨hrun, hnone⟩ := State.enabled_iff.1 he
    obtain ⟨⟨k, a, -, rfl⟩, hop⟩ | ⟨i, hd, hc⟩ := hcases
    · refine ⟨⟨fun hstop => ?_, fun hd => ?_⟩, fun _ _ => rfl⟩
      · exact absurd (hrun.symm.trans hstop) (by decide)
      · exact absurd (hop _ hd) (by decide)
    · refine ⟨?_, fun r hr => ?_⟩
      · rw [hc.running_eq, hd, hrun]; simp
      · exact (State.no_record (hc.fault_eq.trans hnone) hr).elim
  · obtain ⟨-, rfl⟩ := State.runEntry_some h
    rfl

/-! ### What a step does not read: FL but for its E bit, and the output -/

/-- `s` with another FL and another output. -/
def State.withFlOutput (s : State) (f : Byte) (o : List RegVal) : State := { s with fl := f, output := o }

/-- An answer with its next state, if it is one, put through a function. -/
def mapNext (g : State → State) : Result → Result
  | .next t => .next (g t)
  | .fault r => .fault r
  | .refused r => .refused r

section Noninterference

variable (s : State) (f : Byte) (o : List RegVal) (a : RegIdx) (floor : Nat)

theorem raiseDecode_withFlOutput (e : DecodeError) :
    (s.withFlOutput f o).raiseDecode e = mapNext (·.withFlOutput f o) (s.raiseDecode e) := by
  cases e <;> rfl

theorem execPushAt_withFlOutput :
    execPushAt floor a (s.withFlOutput f o) = mapNext (·.withFlOutput f o) (execPushAt floor a s) := by
  by_cases hfloor : s.sp.toNat ≤ floor
  · rw [execPushAt_overflow hfloor]
    exact execPushAt_overflow (s := s.withFlOutput f o) hfloor a
  have hroom : s.sp.toNat ≠ 0 := by omega
  rw [execPushAt_eq (Nat.lt_of_not_le hfloor), execPushAt_eq (s := s.withFlOutput f o) (Nat.lt_of_not_le hfloor)]
  by_cases hmem : s.sp.toNat ≤ 256
  · by_cases hv : ((s.setSp (spDown s.sp)).reg a).toNat < 256
    · rw [execPush_next hroom hmem hv]
      exact execPush_next (s := s.withFlOutput f o) hroom hmem hv
    · rw [execPush_refused hroom hmem (Nat.le_of_not_lt hv)]
      exact execPush_refused (s := s.withFlOutput f o) hroom hmem (Nat.le_of_not_lt hv)
  · rw [execPush_outOfBounds (Nat.lt_of_not_le hmem)]
    exact execPush_outOfBounds (s := s.withFlOutput f o) (Nat.lt_of_not_le hmem) a

theorem execPop_withFlOutput :
    execPop a (s.withFlOutput f o) = mapNext (·.withFlOutput f o) (execPop a s) := by
  by_cases hsp : s.sp.toNat < 256
  · rw [execPop_next hsp]
    exact execPop_next (s := s.withFlOutput f o) hsp a
  · rw [execPop_underflow (Nat.le_of_not_lt hsp)]
    exact execPop_underflow (s := s.withFlOutput f o) (Nat.le_of_not_lt hsp) a

theorem execCallAt_withFlOutput :
    execCallAt floor a (s.withFlOutput f o) = mapNext (·.withFlOutput f o) (execCallAt floor a s) := by
  by_cases hfloor : s.sp.toNat ≤ floor
  · rw [execCallAt_overflow hfloor]
    exact execCallAt_overflow (s := s.withFlOutput f o) hfloor a
  have hroom : s.sp.toNat ≠ 0 := by omega
  rw [execCallAt_eq (Nat.lt_of_not_le hfloor), execCallAt_eq (s := s.withFlOutput f o) (Nat.lt_of_not_le hfloor)]
  by_cases hpc : s.pc ≤ 253
  · by_cases hmem : s.sp.toNat ≤ 256
    · rw [execCall_next hroom hmem hpc]
      exact execCall_next (s := s.withFlOutput f o) hroom hmem hpc a
    · rw [execCall_outOfBounds (Nat.lt_of_not_le hmem) hpc]
      exact execCall_outOfBounds (s := s.withFlOutput f o) (Nat.lt_of_not_le hmem) hpc a
  · rw [execCall_noReturn hroom (Nat.lt_of_not_le hpc)]
    exact execCall_noReturn (s := s.withFlOutput f o) hroom (Nat.lt_of_not_le hpc) a

theorem execRet_withFlOutput :
    execRet (s.withFlOutput f o) = mapNext (·.withFlOutput f o) (execRet s) := by
  by_cases hsp : s.sp.toNat < 256
  · rw [execRet_next hsp]
    exact execRet_next (s := s.withFlOutput f o) hsp
  · rw [execRet_underflow (Nat.le_of_not_lt hsp)]
    exact execRet_underflow (s := s.withFlOutput f o) (Nat.le_of_not_lt hsp)

theorem State.sequence_withFl (n : NextPc) :
    ({ s with fl := f } : State).sequence n = { s.sequence n with fl := f } := by
  cases n <;> rfl

theorem State.sequence_withOutput (n : NextPc) :
    ({ s with output := o } : State).sequence n = { s.sequence n with output := o } := by
  cases n <;> rfl

/-- The operations that read or write FL or the output. -/
def flOutputOps : List Op := [.prn, .cmp, .jeq, .jne]

/-- Any other instruction does the same whatever FL and the output hold. -/
theorem execWith_withFlOutput (p : Params) {i : Instr} (hi : i.op ∉ flOutputOps) :
    execWith p i (s.withFlOutput f o) = mapNext (·.withFlOutput f o) (execWith p i s) := by
  cases i with
  | prn a | cmp a b | jeq a | jne a => simp [Instr.op, flOutputOps] at hi
  | ldi a imm | mul a b | add a b | hlt | jmp a => rfl
  | push a => exact execPushAt_withFlOutput s f o a p.stackFloor
  | pop a => exact execPop_withFlOutput s f o a
  | call a => exact execCallAt_withFlOutput s f o a p.stackFloor
  | ret => exact execRet_withFlOutput s f o

variable {s} {p : Params} {t : State}

/-- A step that runs no instruction of `flOutputOps` does the same under any layout, whatever FL and the output hold. -/
theorem stepWith_withFlOutput (h : stepWith p s = .next t)
    (hq : ∀ i, s.fetchDecodeWith p.opcodeMap = .ok i → i.op ∉ flOutputOps) (l : FlagLayout) :
    stepWith { p with flagLayout := l } (s.withFlOutput f o) = .next (t.withFlOutput f o) := by
  obtain ⟨he, ⟨e, hd, hr⟩ | ⟨i, hd, hx⟩⟩ := stepWith_cases h
  · have hstep := stepWith_of_decodeError (p := { p with flagLayout := l }) (s := s.withFlOutput f o) he hd
    rw [hstep, raiseDecode_withFlOutput, hr, mapNext]
  · have hstep := stepWith_of_decoded (p := { p with flagLayout := l }) (s := s.withFlOutput f o) he hd
    have hl : i.op ∉ [Op.cmp, Op.jeq, Op.jne] := fun hop => hq i hd (List.mem_cons_of_mem _ hop)
    rw [hstep, execWith_flagLayout hl, execWith_withFlOutput s f o p (hq i hd), hx, mapNext]

/-- Such a step keeps FL and the output. -/
theorem stepWith_keeps_fl_output (h : stepWith p s = .next t)
    (hq : ∀ i, s.fetchDecodeWith p.opcodeMap = .ok i → i.op ∉ flOutputOps) : t.fl = s.fl ∧ t.output = s.output := by
  obtain ⟨-, ⟨⟨k, a, -, rfl⟩, -⟩ | ⟨i, hd, hc⟩⟩ := stepWith_inversion h
  · exact ⟨rfl, rfl⟩
  · have hop := hq i hd
    exact ⟨hc.fl_eq fun e => hop (e ▸ by decide), hc.output_eq fun e => hop (e ▸ by decide)⟩

/-- Settles O55: CMP sets E for the same operands under both layouts, JEQ and JNE test the E that agrees, and no other
instruction reads FL. -/
theorem flagPositionsDecideNothingButFl : Obligations.FlagPositionsDecideNothingButFl := by
  intro p l s t f hp hl hE h
  by_cases hq : ∀ i, s.fetchDecodeWith p.opcodeMap = .ok i → i.op ∉ flOutputOps
  · obtain ⟨hfl, hout⟩ := stepWith_keeps_fl_output h hq
    have ht : t.withFlOutput f s.output = { t with fl := f } := by rw [← hout]; rfl
    exact ⟨f, ht ▸ stepWith_withFlOutput f s.output h hq l, hE.trans (by simp only [State.equalFlagWith, hfl])⟩
  push Not at hq
  obtain ⟨i, hd, hop⟩ := hq
  have he := (stepWith_cases h).1
  have hstep := stepWith_of_decoded (p := { p with flagLayout := l }) (s := { s with fl := f }) he hd
  rw [stepWith_of_decoded he hd] at h
  rw [hstep]
  cases i with
  | prn a => cases h; exact ⟨f, rfl, hE⟩
  | cmp a b =>
    cases h
    exact ⟨flagsWith l (s.reg a) (s.reg b), rfl, (flagsWith_equal hl _ _).trans (flagsWith_equal hp _ _).symm⟩
  | jeq a | jne a =>
    cases h
    refine ⟨f, ?_, by simpa [State.equalFlagWith] using hE⟩
    rw [← State.sequence_withFl, ← hE]; rfl
  | _ => simp [Instr.op, flOutputOps] at hop

end Noninterference

/-- Settles O23: the step is the configured one at the defaults, with the layout exchanged for itself. -/
theorem onlyTheEqualBitMatters : Obligations.OnlyTheEqualBitMatters := by
  intro s t f h hE
  simp only [step_eq_stepWith] at h ⊢
  have hwf := Config.flagLayout_wf
  exact flagPositionsDecideNothingButFl Config.params Config.flagLayout s t f hwf hwf hE h

/-- Settles O22: PRN appends one value, and no instruction reads the output. -/
theorem outputIsAppendedAndNeverRead : Obligations.OutputIsAppendedAndNeverRead := by
  intro s t h
  have he := enabled_of_step h
  by_cases hq : ∀ i, s.fetchDecode = .ok i → i.op ∉ flOutputOps
  · rw [step_eq_stepWith] at h
    obtain ⟨hfl, hout⟩ := stepWith_keeps_fl_output h hq
    refine ⟨[], by rw [hout, List.append_nil], .inl rfl, fun o => ?_⟩
    have ht : t.withFlOutput s.fl o = { t with output := o } := by rw [← hfl]; rfl
    rw [step_eq_stepWith, List.append_nil, ← ht]
    exact stepWith_withFlOutput s.fl o h hq Config.flagLayout
  push Not at hq
  obtain ⟨i, hd, hop⟩ := hq
  have hstep : ∀ o, step { s with output := o } = exec i { s with output := o } := fun o =>
    step_of_decoded (s := { s with output := o }) he hd
  rw [step_of_decoded he hd] at h
  simp only [hstep]
  cases i with
  | prn a => cases h; exact ⟨[s.reg a], rfl, .inr ⟨a, hd, rfl⟩, fun _ => rfl⟩
  | cmp a b | jeq a | jne a =>
    cases h
    refine ⟨[], by simp, .inl rfl, fun o => ?_⟩
    rw [List.append_nil, ← State.sequence_withOutput]; rfl
  | _ => simp [Instr.op, flOutputOps] at hop

end Sys2Proof.Machine
end

section
/-! PROOFS. The memory of the CORE (20_memory.md): an access is bounded, and a step writes the byte below the stack pointer
in PUSH and CALL, and no other byte. -/

namespace Sys2Proof.Machine

/-! ### What a completed instruction leaves of memory -/

/-- Reads after a push: the byte below the stack pointer is the byte pushed, every other as before. -/
theorem State.pushByte_memRead {s : State} (room : s.sp.toNat ≠ 0) (inMemory : s.sp.toNat ≤ 256) (v : Byte) (b : Nat) :
    (s.pushByte v).memRead b = if b = (spDown s.sp).toNat then some v else s.memRead b := by
  rw [spDown_toNat room]
  exact (s.setSp (spDown s.sp)).memRead_setMem v (by omega) b

/-- The addresses an instruction writes (20_memory.md rules R42, R44). -/
def Instr.stores (s : State) : Instr → List Nat
  | .push _ => [(spDown s.sp).toNat]
  | .call _ => [(spDown s.sp).toNat]
  | _ => []

/-- A completed instruction writes the addresses `Instr.stores` lists, and no other. -/
theorem Completes.sameMemBut {l : FlagLayout} {i : Instr} {s t : State} (h : Completes l s i t) :
    s.sameMemBut t (Instr.stores s i) := by
  intro b hb
  cases h with
  | push a room inMemory | call a room inMemory =>
    rw [State.sequence_memRead, State.pushByte_memRead room inMemory, if_neg (List.ne_of_not_mem_cons hb)]
  | _ => simp

/-! ### The obligations -/

/-- Settles O18: the memory_access_controller decides by the bound 256 alone, and a write in bounds sets one cell. -/
theorem memoryAccessesAreBounded : Obligations.MemoryAccessesAreBounded := by
  intro s a
  refine ⟨fun ha => ?_, fun ha => ?_⟩
  · have hlt : a < 256 := Nat.lt_succ_of_le ha
    refine ⟨s.load_of_lt hlt, s.memRead_of_lt hlt, fun v => ?_⟩
    have hread := s.memRead_setMem v hlt
    refine ⟨{ s with mem := s.mem.set a v }, State.memWrite_eq_some.2 ⟨hlt, rfl⟩, ?_, fun b hb => ?_, rfl⟩
    · rw [hread, if_pos rfl]
    · rw [hread, if_neg (List.ne_of_not_mem_cons hb)]
  · exact ⟨s.memRead_of_ge ha, s.load_of_ge ha, fun v start go =>
      ⟨State.memWrite_eq_none.2 ha, start.store_of_ge s ha v go⟩⟩

/-- Settles O19: a fault keeps memory, and a changed address is one that the completed instruction writes, which
`Instr.stores` lists for PUSH and CALL only. -/
theorem onlyPushAndCallWriteMemory : Obligations.OnlyPushAndCallWriteMemory := by
  intro s t addr h hchanged
  obtain ⟨-, ⟨⟨k, a, -, rfl⟩, -⟩ | ⟨i, hd, hc⟩⟩ := step_inversion h
  · exact absurd rfl hchanged
  have hmem : addr ∈ Instr.stores s i := by_contra fun hout => hchanged (hc.sameMemBut addr hout)
  cases i with
  | push a => exact ⟨a, .inl hd, List.mem_singleton.1 hmem⟩
  | call a => exact ⟨a, .inr hd, List.mem_singleton.1 hmem⟩
  | _ => exact absurd hmem List.not_mem_nil

end Sys2Proof.Machine
end

section
/-! PROOFS. The encoding (30_encoding.md): the decoder and the encoder agree, and the bytes at the program counter decide
the step, be they an instruction's or not. -/

namespace Sys2Proof

/-! ### The opcode map -/

/-- Under a well-formed map the bytes that stand for an operation are the operations' own bytes, each once. -/
theorem OpcodeMap.legal_perm {m : OpcodeMap} (hm : m.wf = true) :
    ((List.range 256).filter fun n => !(m.lookup (BitVec.ofNat 8 n)).isNone).Perm
      (Op.all.map fun op => (m op).toNat) := by
  have hNodup : (Op.all.map fun op => (m op).toNat).Nodup :=
    List.Nodup.map (fun _ _ h => m.wf_inj hm (BitVec.eq_of_toNat_eq h)) (by decide)
  refine (List.perm_ext_iff_of_nodup (List.nodup_range.filter _) hNodup).2 fun n => ?_
  simp only [List.mem_filter, List.mem_range, List.mem_map, Bool.not_eq_true', Option.isNone_eq_false_iff,
    Option.isSome_iff_exists]
  constructor
  · rintro ⟨hn, op, hop⟩
    refine ⟨op, Op.mem_all op, ?_⟩
    rw [OpcodeMap.lookup_some hop, BitVec.toNat_ofNat, Nat.mod_eq_of_lt hn]
  · rintro ⟨op, -, rfl⟩
    exact ⟨(m op).isLt, op, by rw [BitVec.ofNat_toNat, BitVec.setWidth_eq, OpcodeMap.lookup_map hm]⟩

/-- So 256 - 13 bytes are illegal, whichever the map (30_encoding.md rule R66). -/
theorem OpcodeMap.illegal_count {m : OpcodeMap} (hm : m.wf = true) :
    ((List.range 256).filter fun n => (m.lookup (BitVec.ofNat 8 n)).isNone).length = 243 := by
  have hSplit := List.length_eq_length_filter_add (l := List.range 256)
    fun n => (m.lookup (BitVec.ofNat 8 n)).isNone
  rw [(OpcodeMap.legal_perm hm).length_eq, List.length_range, List.length_map,
    show Op.all.length = 13 from rfl] at hSplit
  omega

/-- A byte outside the opcode map stops the decoder before it reads an operand (30_encoding.md rule R68). -/
theorem decodeWith_illegalOpcode {m : OpcodeMap} {read : Reader} {b : Byte} (h0 : read 0 = some b)
    (hb : m.lookup b = none) : decodeWith m read = .error .illegalOpcode := by
  simp [decodeWith, fetchByte_some h0, bind, Except.bind, hb]

/-- Under a map that gives no byte to two operations, the byte of an operation leaves the rest to its operand decoder. -/
theorem decodeWith_of_opcode {m : OpcodeMap} (hm : m.wf = true) {read : Reader} {op : Op} (h0 : read 0 = some (m op)) :
    decodeWith m read = decodeOperands read op := by
  simp [decodeWith, fetchByte_some h0, bind, Except.bind, OpcodeMap.lookup_map hm]

/-! ### The encoder -/

/-- LDI alone has an operand that is no register operand (30_encoding.md rules R62, R64). -/
theorem Op.hasImmediate_iff (op : Op) : op.format.operandCount ≠ op.format.registerCount ↔ op = .ldi := by
  cases op <;> decide

theorem Instr.operandBytes_length (i : Instr) : i.operandBytes.length = i.op.operandCount := by cases i <;> rfl

/-- An encoding is as long as the instruction is wide, under any opcode map (30_encoding.md rule R60). -/
theorem encodeWith_length (m : OpcodeMap) (i : Instr) : (encodeWith m i).length = i.width := by
  rw [encodeWith, List.length_cons, Instr.operandBytes_length, Instr.width_eq, Nat.add_comm]

/-- What the operand decoder accepts are the operand bytes of the instruction it yields (30_encoding.md rules R63, R64). -/
theorem operandBytes_of_decodeOperands {read : Reader} {op : Op} {i : Instr} (h : decodeOperands read op = .ok i) {k : Nat}
    (hk : k < op.operandCount) : read (k + 1) = i.operandBytes[k]? := by
  cases op with
  | hlt | ret => exact absurd hk (Nat.not_lt_zero k)
  | prn | push | pop | call | jeq | jne | jmp =>
    obtain ⟨a, h1, rfl⟩ := decodeR_ok.1 h
    match k, hk with
    | 0, _ => exact h1
  | ldi =>
    obtain ⟨a, imm, h1, h2, rfl⟩ := decodeRI_ok.1 h
    match k, hk with
    | 0, _ => exact h1
    | 1, _ => exact h2
  | mul | add | cmp =>
    obtain ⟨a, b, h1, h2, rfl⟩ := decodeRR_ok.1 h
    match k, hk with
    | 0, _ => exact h1
    | 1, _ => exact h2

/-! ### Each format refuses the first register operand byte of 8 or more -/

section InvalidRegister

variable {read : Reader} {a b f : Byte}

theorem decodeR_invalidRegister (h1 : read 1 = some a) (hf : [a].find? (fun b => !b.isRegister) = some f)
    (c : RegIdx → Instr) : decodeR read c = .error (.invalidRegister f) := by
  obtain ⟨ha, rfl⟩ : a.isRegister = false ∧ a = f := by simpa using hf
  simp [decodeR, fetchByte_some h1, registerOperand_of_not_isRegister ha, bind, Except.bind]

theorem decodeRI_invalidRegister (h1 : read 1 = some a) (h2 : read 2 = some b)
    (hf : [a].find? (fun b => !b.isRegister) = some f) (c : RegIdx → Byte → Instr) :
    decodeRI read c = .error (.invalidRegister f) := by
  obtain ⟨ha, rfl⟩ : a.isRegister = false ∧ a = f := by simpa using hf
  simp [decodeRI, fetchByte_some h1, fetchByte_some h2, registerOperand_of_not_isRegister ha, bind, Except.bind]

/-- Format RR checks `a` before `b`. -/
theorem decodeRR_invalidRegister (h1 : read 1 = some a) (h2 : read 2 = some b)
    (hf : [a, b].find? (fun b => !b.isRegister) = some f) (c : RegIdx → RegIdx → Instr) :
    decodeRR read c = .error (.invalidRegister f) := by
  cases ha : a.isRegister with
  | false =>
    obtain rfl : a = f := by simpa [ha] using hf
    simp [decodeRR, fetchByte_some h1, fetchByte_some h2, registerOperand_of_not_isRegister ha, bind, Except.bind]
  | true =>
    obtain ⟨hb, rfl⟩ : b.isRegister = false ∧ b = f := by simpa [ha] using hf
    obtain ⟨ra, rfl⟩ := registerByte_of_isRegister ha
    simp [decodeRR, fetchByte_some h1, fetchByte_some h2, registerOperand_of_not_isRegister hb, bind, Except.bind]

end InvalidRegister

/-! ### The operand bytes decide what the operand decoder answers -/

section OperandBytes

variable {read : Reader} {op : Op} {bs : List Byte}

/-- The first register operand byte of 8 or more is the one refused (30_encoding.md rules R63, R68). -/
theorem decodeOperands_invalidRegister (hlen : bs.length = op.operandCount)
    (hread : ∀ k, k < bs.length → read (k + 1) = bs[k]?) {f : Byte}
    (hf : (bs.take op.format.registerCount).find? (fun b => !b.isRegister) = some f) :
    decodeOperands read op = .error (.invalidRegister f) := by
  cases op with
  | hlt | ret => cases hf
  | prn | push | pop | call | jeq | jne | jmp =>
    obtain ⟨a, rfl⟩ := List.length_eq_one_iff.1 hlen
    exact decodeR_invalidRegister (hread 0 Nat.one_pos) hf _
  | ldi =>
    obtain ⟨a, b, rfl⟩ := List.length_eq_two.1 hlen
    exact decodeRI_invalidRegister (hread 0 Nat.two_pos) (hread 1 Nat.one_lt_two) hf _
  | mul | add | cmp =>
    obtain ⟨a, b, rfl⟩ := List.length_eq_two.1 hlen
    exact decodeRR_invalidRegister (hread 0 Nat.two_pos) (hread 1 Nat.one_lt_two) hf _

theorem Op.operandsWf_iff : op.operandsWf bs = true ↔
    bs.length = op.operandCount ∧ ∀ f ∈ bs.take op.format.registerCount, f.isRegister = true := by
  rw [Op.operandsWf, Bool.and_eq_true, beq_iff_eq, List.all_eq_true]

/-- Well-formed operand bytes are those of an instruction, which the operand decoder yields. -/
theorem decodeOperands_of_operandsWf (hwf : op.operandsWf bs = true)
    (hread : ∀ k, k < bs.length → read (k + 1) = bs[k]?) : ∃ i, decodeOperands read op = .ok i := by
  obtain ⟨hlen, hreg⟩ := Op.operandsWf_iff.1 hwf
  cases op with
  | hlt | ret => exact ⟨_, rfl⟩
  | prn | push | pop | call | jeq | jne | jmp =>
    obtain ⟨a, rfl⟩ := List.length_eq_one_iff.1 hlen
    obtain ⟨ra, rfl⟩ := registerByte_of_isRegister (hreg a List.mem_cons_self)
    exact ⟨_, decodeR_ok.2 ⟨ra, hread 0 Nat.one_pos, rfl⟩⟩
  | ldi =>
    obtain ⟨a, b, rfl⟩ := List.length_eq_two.1 hlen
    obtain ⟨ra, rfl⟩ := registerByte_of_isRegister (hreg a List.mem_cons_self)
    exact ⟨_, decodeRI_ok.2 ⟨ra, b, hread 0 Nat.two_pos, hread 1 Nat.one_lt_two, rfl⟩⟩
  | mul | add | cmp =>
    obtain ⟨a, b, rfl⟩ := List.length_eq_two.1 hlen
    obtain ⟨ra, rfl⟩ := registerByte_of_isRegister (hreg a List.mem_cons_self)
    obtain ⟨rb, rfl⟩ := registerByte_of_isRegister (hreg b (List.mem_cons_of_mem _ List.mem_cons_self))
    exact ⟨_, decodeRR_ok.2 ⟨ra, rb, hread 0 Nat.two_pos, hread 1 Nat.one_lt_two, rfl⟩⟩

/-- The instruction decoded has the bytes read as its operand bytes. -/
theorem operandBytes_eq_of_decodeOperands {i : Instr} (h : decodeOperands read op = .ok i)
    (hlen : bs.length = op.operandCount) (hread : ∀ k, k < bs.length → read (k + 1) = bs[k]?) : i.operandBytes = bs := by
  have hlen' : i.operandBytes.length = bs.length := by rw [Instr.operandBytes_length, decodeOperands_op h, hlen]
  refine List.ext_getElem?' fun k hk => ?_
  rw [hlen', max_self] at hk
  rw [← operandBytes_of_decodeOperands h (hlen ▸ hk), hread k hk]

end OperandBytes

end Sys2Proof

namespace Sys2Proof.Machine

/-- With the opcode of `op` at the program counter, decoding is that of its operands. -/
theorem fetchDecode_of_opcode {s : State} {op : Op} (h : s.memRead s.pc = some (Config.opcodeMap op)) :
    s.fetchDecode = decodeOperands (fun k => s.memRead (s.pc + k)) op :=
  decodeWith_of_opcode Config.opcodeMap_wf h

/-! ### The obligations -/

/-- Settles O2: a reader of the encoding and more bytes holds the encoding on every byte of the width. -/
theorem decodeReadsBackEncode : Obligations.DecodeReadsBackEncode := by
  intro m hm i rest
  refine decodeWith_of_encodeWith hm fun k hk => ?_
  exact List.getElem?_append_left (by rwa [encodeWith_length])

/-- Settles O3: the opcode byte is that of the operation decoded, and each format reads its operand bytes whole. -/
theorem decodeAcceptsOnlyEncodings : Obligations.DecodeAcceptsOnlyEncodings := by
  intro m read i h k hk
  obtain ⟨opc, op, hOpcode, hLookup, hOperands⟩ := decodeWith_ok.1 h
  obtain rfl : i.op = op := decodeOperands_op hOperands
  cases k with
  | zero => rw [hOpcode, ← OpcodeMap.lookup_some hLookup]; rfl
  | succ k =>
    rw [Instr.width_eq] at hk
    exact operandBytes_of_decodeOperands hOperands (by omega)

/-- Settles O5: the step is decided by the operand decoder, and that by the operand bytes. -/
theorem operandBytesDecideTheStep : Obligations.OperandBytesDecideTheStep := by
  intro s op bs he hOpcode hlen hBytes
  have hDecode := fetchDecode_of_opcode hOpcode
  have hread : ∀ k, k < bs.length → s.memRead (s.pc + (k + 1)) = bs[k]? := fun k hk => by
    rw [← hBytes k hk, Nat.add_assoc, Nat.add_comm 1 k]
  refine ⟨fun f hf => ?_, fun hwf => ?_⟩
  · exact step_of_decodeError he (hDecode.trans (decodeOperands_invalidRegister hlen hread hf))
  · obtain ⟨i, hi⟩ := decodeOperands_of_operandsWf (read := fun k => s.memRead (s.pc + k)) hwf hread
    exact ⟨i, decodeOperands_op hi, operandBytes_eq_of_decodeOperands hi hlen hread,
      step_of_decoded he (hDecode.trans hi)⟩

/-- Settles O25: the step at those bytes is LDI of the byte, zero-extended, and no other operation has an immediate. -/
theorem ldiImmediateIsTheWholeByte : Obligations.LdiImmediateIsTheWholeByte := by
  refine ⟨fun s a b he hOpcode ha hb => ?_, Op.hasImmediate_iff⟩
  have hDecode : s.fetchDecode = .ok (.ldi a b) :=
    (fetchDecode_of_opcode (op := .ldi) hOpcode).trans (decodeRI_ok.2 ⟨a, b, ha, hb, rfl⟩)
  refine ⟨_, step_of_decoded he hDecode, ?_⟩
  rw [State.sequence_reg, State.setReg_reg_same, byteValue_toNat]

/-- Settles O1, by decoding each word. -/
theorem specWordsDecode : Obligations.SpecWordsDecode := by
  unfold Obligations.SpecWordsDecode
  decide

/-- Settles O4: a byte that stands for no operation is a decode error; the count is that of any well-formed map. -/
theorem byteOutsideMapIsIllegal : Obligations.ByteOutsideMapIsIllegal := by
  refine ⟨fun s b he hb hNone => ?_, OpcodeMap.illegal_count Config.opcodeMap_wf, by decide⟩
  exact step_of_decodeError he (decodeWith_illegalOpcode hb (OpcodeMap.lookup_none.2 hNone))

end Sys2Proof.Machine
end

section
/-! PROOFS. The fetch-decode-execute loop (40_dispatch_loop.md): which fault a step raises (rule R85), what it does to the
program counter (rule R90), when a step is enabled (rule R80), and how a run ends (rule R89). -/

namespace Sys2Proof

/-! ### The decoder at the end of memory -/

/-- Without an opcode byte the decoder stops there (30_encoding.md rule R68). -/
theorem decodeWith_missingOpcode {m : OpcodeMap} {read : Reader} (h0 : read 0 = none) :
    decodeWith m read = .error (.missingByte 0) := by
  simp [decodeWith, fetchByte_none h0, bind, Except.bind]

/-- A byte that stands for an operation leaves the rest to its operand decoder, whichever the map. -/
theorem decodeWith_of_lookup {m : OpcodeMap} {read : Reader} {b : Byte} {op : Op} (h0 : read 0 = some b)
    (hop : m.lookup b = some op) : decodeWith m read = decodeOperands read op := by
  simp [decodeWith, fetchByte_some h0, bind, Except.bind, hop]

section MissingOperand

variable {read : Reader} {op : Op}

/-- An operation of two bytes or more reads its first operand byte before any check. -/
theorem decodeOperands_missingFirst (hop : 2 ≤ op.width) (h1 : read 1 = none) :
    decodeOperands read op = .error (.missingByte 1) := by
  cases op with
  | hlt | ret => exact absurd hop (by decide)
  | ldi => simp [decodeOperands, decodeRI, fetchByte_none h1, bind, Except.bind]
  | mul | add | cmp => simp [decodeOperands, decodeRR, fetchByte_none h1, bind, Except.bind]
  | prn | push | pop | call | jeq | jne | jmp => simp [decodeOperands, decodeR, fetchByte_none h1, bind, Except.bind]

/-- An operation of three bytes reads its second operand byte before any check (30_encoding.md rule R68). -/
theorem decodeOperands_missingSecond (hop : op.width = 3) {a : Byte} (h1 : read 1 = some a) (h2 : read 2 = none) :
    decodeOperands read op = .error (.missingByte 2) := by
  cases op with
  | ldi => simp [decodeOperands, decodeRI, fetchByte_some h1, fetchByte_none h2, bind, Except.bind]
  | mul | add | cmp => simp [decodeOperands, decodeRR, fetchByte_some h1, fetchByte_none h2, bind, Except.bind]
  | hlt | ret | prn | push | pop | call | jeq | jne | jmp => exact absurd hop (by decide)

end MissingOperand

theorem Op.operandCount_le_two (op : Op) : op.operandCount ≤ 2 := by cases op <;> decide

theorem Op.registerCount_le_operandCount (op : Op) : op.format.registerCount ≤ op.operandCount := by
  cases op <;> decide

theorem Op.width_eq (op : Op) : op.width = 1 + op.operandCount := rfl

end Sys2Proof

namespace Sys2Proof.Machine

/-! ### The operand bytes at the program counter -/

/-- The bytes in memory where the operand bytes of `op` stand. -/
def State.operandBytes (s : State) (op : Op) : List Byte :=
  [s.mem.get (s.pc + 1), s.mem.get (s.pc + 2)].take op.operandCount

theorem State.operandBytes_length (s : State) (op : Op) : (s.operandBytes op).length = op.operandCount := by
  simp [State.operandBytes, Op.operandCount_le_two op]

/-- The register operands of the fault table are the leading operand bytes. -/
theorem State.badOperand_eq (s : State) (op : Op) :
    s.badOperand op = ((s.operandBytes op).take op.format.registerCount).find? (fun f => !f.isRegister) := by
  rw [State.operandBytes, List.take_take, Nat.min_eq_left (Op.registerCount_le_operandCount op), State.badOperand]

/-- The operand bytes of an operation that lies in memory are what the decoder reads. -/
theorem State.memRead_operandBytes {s : State} {op : Op} (hfit : s.pc + op.width ≤ 256) {k : Nat}
    (hk : k < (s.operandBytes op).length) : s.memRead (s.pc + (k + 1)) = (s.operandBytes op)[k]? := by
  rw [State.operandBytes_length] at hk
  have hcount := Op.operandCount_le_two op
  rw [Op.width_eq] at hfit
  rw [s.memRead_of_lt (by omega), State.operandBytes, List.getElem?_take_of_lt hk]
  obtain rfl | rfl : k = 0 ∨ k = 1 := by omega
  · rfl
  · rfl

/-- A bad register operand of an operation that lies in memory is refused by its operand decoder. -/
theorem decodeOperands_of_badOperand {s : State} {op : Op} (hfit : s.pc + op.width ≤ 256) {f : Byte}
    (hbad : s.badOperand op = some f) :
    decodeOperands (fun k => s.memRead (s.pc + k)) op = .error (.invalidRegister f) :=
  decodeOperands_invalidRegister (s.operandBytes_length op) (fun _ hk => State.memRead_operandBytes hfit hk)
    (by rw [← State.badOperand_eq, hbad])

/-- Without a bad register operand, the bytes of an operation that lies in memory decode to an instruction of it. -/
theorem decodeOperands_of_no_badOperand {s : State} {op : Op} (hfit : s.pc + op.width ≤ 256)
    (hgood : s.badOperand op = none) : ∃ i, decodeOperands (fun k => s.memRead (s.pc + k)) op = .ok i := by
  refine decodeOperands_of_operandsWf (bs := s.operandBytes op)
    (Op.operandsWf_iff.2 ⟨s.operandBytes_length op, fun f hf => ?_⟩) fun k hk => State.memRead_operandBytes hfit hk
  rw [State.badOperand_eq] at hgood
  simpa using List.find?_eq_none.1 hgood f hf

/-! ### The fault table -/

/-- The result `r` is as the fault table says of a step at `s`: the fault of the first check that applies, with its address,
or a next state without a fault where none applies. -/
def State.answersByTable (s : State) (r : Result) : Option (FaultKind × Nat) → Prop
  | some (k, a) => r = .next (s.withFault k a)
  | none => ∃ t, r = .next t ∧ t.fault = none

/-- The rows of the fault table that follow decoding: the stack bounds and CALL's return address (40_dispatch_loop.md rule
R85 rows 6 to 8). -/
def State.executeFault (p : Params) (s : State) (op : Op) : Option (FaultKind × Nat) :=
  if (op = .push ∨ op = .call) ∧ s.sp.toNat ≤ p.stackFloor then some (.stackOverflow, s.sp.toNat)
  else if (op = .pop ∨ op = .ret) ∧ s.sp.toNat = 256 then some (.stackUnderflow, s.sp.toNat)
  else if op = .call ∧ s.pc + 2 > 255 then some (.outOfBoundsAccess, s.pc + 2)
  else none

section FaultTable

variable {p : Params} {s : State}

/-- In a state that meets the invariant the value PUSH writes is a byte, R7 decremented among them (20_memory.md rule
R42, decision D8). -/
theorem State.InvWith.pushValue_lt (hs : s.InvWith p) (room : s.sp.toNat ≠ 0) (a : RegIdx) :
    ((s.setSp (spDown s.sp)).reg a).toNat < 256 := by
  have hsp := hs.stackPointer
  by_cases ha : a = Config.spIndex
  · rw [ha, ← State.sp_eq, State.setSp_sp, spDown_toNat room]; omega
  · rw [State.setSp_reg_other _ _ ha]; exact Nat.lt_succ_of_le (hs.general a ha)

theorem execPushAt_answersByTable (hs : s.InvWith p) (hf : s.fault = none) (a : RegIdx) :
    s.answersByTable (execPushAt p.stackFloor a s) (s.executeFault p .push) := by
  by_cases hfloor : s.sp.toNat ≤ p.stackFloor
  · rw [State.executeFault, if_pos ⟨.inl rfl, hfloor⟩]
    exact execPushAt_overflow hfloor a
  · have room : s.sp.toNat ≠ 0 := by omega
    have hrow : s.executeFault p .push = none := by simp [State.executeFault, hfloor]
    rw [hrow, execPushAt_eq (Nat.lt_of_not_le hfloor), execPush_next room hs.stackPointer (hs.pushValue_lt room a)]
    exact ⟨_, rfl, by simpa using hf⟩

theorem execCallAt_answersByTable (hs : s.InvWith p) (hf : s.fault = none) (a : RegIdx) :
    s.answersByTable (execCallAt p.stackFloor a s) (s.executeFault p .call) := by
  by_cases hfloor : s.sp.toNat ≤ p.stackFloor
  · rw [State.executeFault, if_pos ⟨.inr rfl, hfloor⟩]
    exact execCallAt_overflow hfloor a
  have room : s.sp.toNat ≠ 0 := by omega
  rw [execCallAt_eq (Nat.lt_of_not_le hfloor)]
  by_cases hpc : s.pc + 2 > 255
  · have hrow : s.executeFault p .call = some (.outOfBoundsAccess, s.pc + 2) := by
      simp [State.executeFault, hfloor, hpc]
    rw [hrow]
    exact execCall_noReturn room (by omega) a
  · have hrow : s.executeFault p .call = none := by simp [State.executeFault, hfloor, hpc]
    rw [hrow, execCall_next room hs.stackPointer (by omega)]
    exact ⟨_, rfl, by simpa using hf⟩

/-- POP and RET: the stack is empty at 256, which is the greatest stack pointer. -/
theorem State.answersByTable_of_popBound (hs : s.InvWith p) (hf : s.fault = none) {op : Op} (hop : op = .pop ∨ op = .ret)
    {r : Result} (hempty : 256 ≤ s.sp.toNat → r = s.raise .stackUnderflow s.sp.toNat)
    (hpop : s.sp.toNat < 256 → ∃ t, r = .next t ∧ t.fault = s.fault) :
    s.answersByTable r (s.executeFault p op) := by
  have hpush : ¬(op = .push ∨ op = .call) := by obtain rfl | rfl := hop <;> decide
  by_cases h : s.sp.toNat = 256
  · rw [State.executeFault, if_neg fun hc => hpush hc.1, if_pos ⟨hop, h⟩]
    exact hempty (Nat.le_of_eq h.symm)
  · rw [State.executeFault, if_neg fun hc => hpush hc.1, if_neg fun hc => h hc.2, if_neg fun hc => hpush (.inr hc.1)]
    obtain ⟨t, hr, ht⟩ := hpop (Nat.lt_of_le_of_ne hs.stackPointer h)
    exact ⟨t, hr, ht.trans hf⟩

/-- Once decoded, an instruction raises the fault of the rows that follow decoding, or completes. -/
theorem execWith_answersByTable (hs : s.InvWith p) (hf : s.fault = none) (i : Instr) :
    s.answersByTable (execWith p i s) (s.executeFault p i.op) := by
  cases i with
  | push a => exact execPushAt_answersByTable hs hf a
  | pop a =>
    exact State.answersByTable_of_popBound hs hf (.inl rfl) (execPop_underflow · a) fun h =>
      ⟨_, execPop_next h a, by simp⟩
  | call a => exact execCallAt_answersByTable hs hf a
  | ret =>
    exact State.answersByTable_of_popBound hs hf (.inr rfl) execRet_underflow fun h => ⟨_, execRet_next h, by simp⟩
  | ldi | prn | hlt | mul | add | cmp | jeq | jne | jmp => exact ⟨_, rfl, by simpa using hf⟩

/-- The step at an enabled state that meets the invariant is as the fault table says, row by row (40_dispatch_loop.md rule
R85). -/
theorem stepWith_answersByTable (hs : s.InvWith p) (he : s.enabled = true) :
    s.answersByTable (stepWith p s) (s.firstFaultWith p) := by
  unfold State.firstFaultWith
  split
  · next hpc =>
    exact stepWith_of_decodeError he (decodeWith_missingOpcode (s.memRead_of_ge hpc))
  next hpc =>
  have hopcode : s.memRead (s.pc + 0) = some (s.mem.get s.pc) := s.memRead_of_lt (by omega)
  split
  · next hlookup =>
    exact stepWith_of_decodeError he (decodeWith_illegalOpcode hopcode hlookup)
  next op hlookup =>
  have hdecode : s.fetchDecodeWith p.opcodeMap = decodeOperands (fun k => s.memRead (s.pc + k)) op :=
    decodeWith_of_lookup hopcode hlookup
  split
  · next hfirst =>
    obtain ⟨hwidth, hout⟩ := hfirst
    exact stepWith_of_decodeError he (hdecode.trans (decodeOperands_missingFirst hwidth (s.memRead_of_ge hout)))
  next hfirst =>
  split
  · next hsecond =>
    obtain ⟨hwidth, hout⟩ := hsecond
    have hread : s.memRead (s.pc + 1) = some (s.mem.get (s.pc + 1)) := s.memRead_of_lt (by omega)
    exact stepWith_of_decodeError he
      (hdecode.trans (decodeOperands_missingSecond hwidth hread (s.memRead_of_ge hout)))
  next hsecond =>
  have hwidth : op.width ≤ 3 := by have := op.operandCount_le_two; rw [Op.width_eq]; omega
  have hfit : s.pc + op.width ≤ 256 := by omega
  split
  · next f hbad =>
    exact stepWith_of_decodeError he (hdecode.trans (decodeOperands_of_badOperand hfit hbad))
  · next hgood =>
    obtain ⟨i, hi⟩ := decodeOperands_of_no_badOperand hfit hgood
    rw [stepWith_of_decoded he (hdecode.trans hi), ← decodeOperands_op hi]
    exact execWith_answersByTable hs (State.enabled_iff.1 he).2 i

/-- In a state that meets the invariant an enabled step answers a next state: none is refused. -/
theorem stepWith_next (hs : s.InvWith p) (he : s.enabled = true) : ∃ t, stepWith p s = .next t := by
  have h := stepWith_answersByTable hs he
  cases hfirst : s.firstFaultWith p with
  | some f => rw [hfirst] at h; exact ⟨_, h⟩
  | none =>
    rw [hfirst] at h
    obtain ⟨t, ht, -⟩ := h
    exact ⟨t, ht⟩

end FaultTable

/-! ### The program counter and the enabling of steps -/

section Step

variable {s t : State}

/-- A step that records no fault completed the instruction it decoded. -/
theorem step_completes (h : step s = .next t) (ht : t.fault = none) :
    ∃ i, s.fetchDecode = .ok i ∧ exec i s = .next t ∧ Completes Config.flagLayout s i t := by
  obtain ⟨he, ⟨⟨k, a, -, rfl⟩, -⟩ | ⟨i, hd, hc⟩⟩ := step_inversion h
  · cases ht
  · exact ⟨i, hd, (step_of_decoded he hd).symm.trans h, hc⟩

/-- A step that records a fault changed nothing else. -/
theorem step_faultsTo (h : step s = .next t) (ht : t.fault ≠ none) : s.faultsTo t := by
  obtain ⟨he, ⟨hfault, -⟩ | ⟨i, -, hc⟩⟩ := step_inversion h
  · exact hfault
  · exact absurd (hc.fault_eq.trans (State.enabled_iff.1 he).2) ht

/-- A completed instruction sets the program counter by the table of rule R90. -/
theorem Completes.pc_eq {i : Instr} (h : Completes Config.flagLayout s i t) : t.pc = Instr.pcAfter i s := by
  cases h with
  | ldi | mul | add | cmp | prn | push | pop | hlt | ret | jmp => rfl
  | call a room =>
    rw [State.sequence_target_pc, Instr.pcAfter]
    split
    · next ha => rw [ha, ← State.sp_eq, State.setSp_sp, spDown_toNat room]
    · next ha => rw [State.setSp_reg_other _ _ ha]
  | jeq a => rw [State.equalFlagWith_default, Instr.pcAfter]; split <;> rfl
  | jne a => rw [State.equalFlagWith_default, Instr.pcAfter]; split <;> rfl

/-- Among completed instructions HLT alone ends the run (40_dispatch_loop.md rule R80). -/
theorem Completes.enabled_eq_false_iff {l : FlagLayout} {i : Instr} (h : Completes l s i t) (he : s.enabled = true) :
    t.enabled = false ↔ i = .hlt := by
  obtain ⟨hrun, hf⟩ := State.enabled_iff.1 he
  rw [State.enabled, h.running_eq, h.fault_eq, hrun, hf]
  split <;> simp_all

end Step

/-! ### The loop of a run -/

section Run

variable {s t : State}

/-- A state is enabled, or halted, or has a fault recorded. -/
theorem State.enabled_or_stopped (s : State) : s.enabled = true ∨ s.halted ∨ ∃ r, s.fault = some r := by
  cases hf : s.fault with
  | some r => exact .inr (.inr ⟨r, rfl⟩)
  | none =>
    cases hr : s.running with
    | true => exact .inl (State.enabled_iff.2 ⟨hr, hf⟩)
    | false => exact .inr (.inl ⟨hr, hf⟩)

/-- From a halted state a run ends there, whatever its fuel. -/
theorem runLoop_of_halted (h : s.halted) (fuel : Nat) : runLoop fuel s = .halted s := by
  obtain ⟨hr, hf⟩ := h
  cases fuel with
  | zero => simp [runLoop_zero, hf, hr]
  | succ fuel => simp [runLoop_succ, step, State.cycle, hf, hr]

/-- With a fault recorded a run ends there, whatever its fuel. -/
theorem runLoop_of_fault {r : FaultRecord} (h : s.fault = some r) (fuel : Nat) : runLoop fuel s = .faulted r s := by
  cases fuel with
  | zero => simp [runLoop_zero, h]
  | succ fuel => simp [runLoop_succ, step, State.cycle, h]

theorem runLoop_zero_of_enabled (h : s.enabled = true) : runLoop 0 s = .unfinished s := by
  obtain ⟨hr, hf⟩ := State.enabled_iff.1 h
  simp [runLoop_zero, hf, hr]

theorem runLoop_succ_of_next (h : step s = .next t) (fuel : Nat) : runLoop (fuel + 1) s = runLoop fuel t := by
  rw [runLoop_succ, h]

end Run

/-! ### How a run can stand -/

/-- How a run may stand (40_dispatch_loop.md rule R89): halted, or faulted with `running` still true (decision D12), or
unfinished where the next step is enabled; never refused. -/
def RunResult.isProper : RunResult → Prop
  | .halted t => t.halted
  | .faulted r t => t.fault = some r ∧ t.running = true
  | .unfinished t => t.enabled = true
  | .refused _ _ => False

/-- Where no step is enabled, a run ends as it should without a step. -/
theorem runLoop_isProper_of_not_enabled {s : State} (hs : s.Inv) (he : s.enabled ≠ true) (fuel : Nat) :
    (runLoop fuel s).isProper := by
  obtain hon | hhalt | ⟨r, hr⟩ := s.enabled_or_stopped
  · exact absurd hon he
  · rw [runLoop_of_halted hhalt]; exact hhalt
  · rw [runLoop_of_fault hr]; exact ⟨hr, (hs.faultRecord r hr).1⟩

/-- From a state that meets the invariant a run stands as it should, by induction on the fuel: an enabled step answers a
next state that meets the invariant again. -/
theorem runLoop_isProper {s : State} (hs : s.Inv) (fuel : Nat) : (runLoop fuel s).isProper := by
  induction fuel generalizing s with
  | zero =>
    by_cases he : s.enabled = true
    · rw [runLoop_zero_of_enabled he]; exact he
    · exact runLoop_isProper_of_not_enabled hs he 0
  | succ fuel ih =>
    by_cases he : s.enabled = true
    · obtain ⟨t, ht⟩ := stepWith_next hs he
      rw [← step_eq_stepWith] at ht
      rw [runLoop_succ_of_next ht]
      exact ih (stepKeepsTheInvariant s t hs ht)
    · exact runLoop_isProper_of_not_enabled hs he (fuel + 1)

/-! ### The obligations -/

/-- Settles O53: the statement is `State.answersByTable` written out. -/
theorem configuredStepFaultsByTheTable : Obligations.ConfiguredStepFaultsByTheTable := fun _ _ hs he =>
  stepWith_answersByTable hs he

/-- Settles O8: the step is the configured one at the defaults. -/
theorem stepFaultsByTheTable : Obligations.StepFaultsByTheTable := by
  intro s hs he
  rw [step_eq_stepWith]
  exact stepWith_answersByTable hs he

/-- Settles O7: a recorded fault leaves the program counter, and a completed instruction sets it by its own rule. -/
theorem programCounterIsSetByTheInstruction : Obligations.ProgramCounterIsSetByTheInstruction := by
  refine fun s t h => ⟨fun ht => ?_, fun ht => ?_⟩
  · obtain ⟨k, a, -, rfl⟩ := step_faultsTo h ht
    rfl
  · obtain ⟨i, hd, hx, hc⟩ := step_completes h ht
    exact ⟨i, hd, hx, hc.pc_eq⟩

/-- Settles O9: the record is that of the state before, and no step raises `ImageTooLarge`. -/
theorem faultsArePrecise : Obligations.FaultsArePrecise := by
  intro s t r h hr
  obtain ⟨k, a, hk, rfl⟩ := step_faultsTo h (by rw [hr]; exact Option.some_ne_none r)
  obtain rfl : s.record k a = r := Option.some.inj hr
  exact ⟨rfl, hk, rfl, rfl, rfl⟩

/-- Settles O10: a fault disables the next step, and a completed instruction does so when it is HLT. -/
theorem stepsHappenOnlyWhenEnabled : Obligations.StepsHappenOnlyWhenEnabled := by
  refine fun s => ⟨fun t h => ?_, fun u hu => ?_⟩
  · have he := enabled_of_step h
    obtain ⟨hrun, hf⟩ := State.enabled_iff.1 he
    refine ⟨hrun, hf, fun ht => ?_, ?_⟩
    · obtain ⟨i, hd, hx, -⟩ := step_completes h ht
      exact ⟨i, hd, hx⟩
    · by_cases ht : t.fault = none
      · obtain ⟨i, hd, -, hc⟩ := step_completes h ht
        rw [hc.enabled_eq_false_iff he, hd]
        simp [ht]
      · have hstop : t.enabled = false := Bool.eq_false_iff.2 fun hon => ht (State.enabled_iff.1 hon).2
        simp [hstop, ht]
  · obtain ⟨hf, rfl⟩ := State.runEntry_some hu
    exact State.enabled_iff.2 ⟨rfl, hf⟩

/-- Settles O44: the statement is `RunResult.isProper` written out. -/
theorem runsEndHaltedOrFaulted : Obligations.RunsEndHaltedOrFaulted := fun fuel _ hs => runLoop_isProper hs fuel

/-- Settles O45, by induction on the fuel: a run that has ended with no fuel left is at a state where no step is enabled. -/
theorem endedRunsIgnoreMoreFuel : Obligations.EndedRunsIgnoreMoreFuel := by
  intro fuel more
  induction fuel with
  | zero =>
    intro s hend
    obtain he | hhalt | ⟨r, hr⟩ := s.enabled_or_stopped
    · exact absurd (runLoop_zero_of_enabled he) (hend s)
    · rw [runLoop_of_halted hhalt, runLoop_of_halted hhalt]
    · rw [runLoop_of_fault hr, runLoop_of_fault hr]
  | succ fuel ih =>
    intro s hend
    rw [Nat.add_right_comm]
    cases hstep : step s with
    | next t =>
      rw [runLoop_succ_of_next hstep] at hend
      rw [runLoop_succ_of_next hstep, runLoop_succ_of_next hstep, ih t hend]
    | fault r => rw [runLoop_succ, runLoop_succ, hstep]
    | refused r => cases r <;> rw [runLoop_succ, runLoop_succ, hstep]

/-- Settles O6: the decoder reads the encoding back, and an enabled step is the dispatch of what is decoded. -/
theorem stepRunsTheDecodedInstruction : Obligations.StepRunsTheDecodedInstruction := by
  refine fun s i he => ⟨fun hbytes => ?_, step_of_decoded he⟩
  have hd : s.fetchDecode = .ok i := fetchDecodeWith_of_encodeWith Config.opcodeMap_wf hbytes
  exact ⟨hd, step_of_decoded he hd⟩

end Sys2Proof.Machine
end

section
/-! PROOFS. LDI, PRN and HLT (41_load_print_halt.md): what each computes and keeps, and how a run ends at HLT. -/

namespace Sys2Proof.Machine

/-! ### The end of a run and the next one -/

/-- An enabled step past the end of memory faults at its opcode fetch (40_dispatch_loop.md rule R85 row 1). -/
theorem step_of_pc_outOfBounds {s : State} (he : s.enabled = true) (hpc : 256 ≤ s.pc) :
    step s = .next (s.withFault .outOfBoundsAccess s.pc) :=
  step_of_decodeError he (decodeWith_missingOpcode (s.memRead_of_ge hpc))

/-- After a normal end `run()` is admitted (70_reset_and_hazards.md rule R233). -/
theorem State.runEntry_of_halted {s : State} (h : s.halted) : s.runEntry = some s.enterRun := by
  obtain ⟨hrun, hf⟩ := h
  simp [State.runEntry, hrun, hf]

/-- On entry of `run()` a step is enabled where no fault is recorded. -/
theorem State.enterRun_enabled {s : State} (hf : s.fault = none) : s.enterRun.enabled = true :=
  State.enabled_iff.2 ⟨rfl, hf⟩

/-- HLT completes in every state (41_load_print_halt.md rule R102). -/
theorem exec_hlt_completes (s : State) : ∃ t, exec .hlt s = .next t ∧ Completes Config.flagLayout s .hlt t :=
  ⟨_, rfl, .hlt⟩

/-- HLT in an enabled state leaves a halted one. -/
theorem Completes.halted_of_hlt {l : FlagLayout} {s t : State} (h : Completes l s .hlt t) (he : s.enabled = true) :
    t.halted :=
  ⟨h.running_eq, h.fault_eq.trans (State.enabled_iff.1 he).2⟩

/-- The opcode of HLT is the whole instruction. -/
theorem fetchDecode_hlt {s : State} (h : s.memRead s.pc = some 0x01) : s.fetchDecode = .ok .hlt :=
  fetchDecode_of_opcode (op := .hlt) h

/-! ### The obligations -/

/-- Settles O24: LDI always completes, and its frame is that of any completed instruction. -/
theorem ldiLoadsItsImmediate : Obligations.LdiLoadsItsImmediate := by
  intro s a imm
  have hc := Completes.ldi (l := Config.flagLayout) (s := s) a imm
  refine ⟨_, rfl, ?_, hc.pc_eq, hc.sameRegsBut, hc.sameMemBut,
    hc.fl_eq (by simp [Instr.op]), hc.running_eq, hc.fault_eq, hc.output_eq (by simp [Instr.op])⟩
  rw [State.sequence_reg, State.setReg_reg_same, byteValue_toNat]

/-- Settles O26: PRN always completes, and its frame is that of any completed instruction. -/
theorem prnEmitsTheRegister : Obligations.PrnEmitsTheRegister := by
  intro s a
  have hc := Completes.prn (l := Config.flagLayout) (s := s) a
  exact ⟨_, rfl, rfl, hc.pc_eq, hc.sameRegsBut, hc.sameMemBut,
    hc.fl_eq (by simp [Instr.op]), hc.running_eq, hc.fault_eq⟩

/-- Settles O27: HLT always completes; the step at its byte is HLT and leaves a halted state, where the run ends. From 255
the program counter is left at 256, where the first fetch of the next run is out of bounds. -/
theorem hltEndsTheRun : Obligations.HltEndsTheRun := by
  refine ⟨rfl, fun s => ?_, fun s he hbyte => ?_, fun s he hpc => step_of_pc_outOfBounds he hpc⟩
  · obtain ⟨t, hx, hc⟩ := exec_hlt_completes s
    exact ⟨t, hx, hc.running_eq, hc.pc_eq, hc.sameRegsBut, hc.sameMemBut, hc.fl_eq (by decide), hc.fault_eq,
      hc.output_eq (by decide)⟩
  · obtain ⟨t, hx, hc⟩ := exec_hlt_completes s
    have hstep : step s = .next t := (step_of_decoded he (fetchDecode_hlt hbyte)).trans hx
    have hhalted : t.halted := hc.halted_of_hlt he
    refine ⟨t, hx, hstep, fun fuel => ?_, fun h255 => ⟨t.enterRun, State.runEntry_of_halted hhalted, ?_⟩⟩
    · rw [runLoop_succ_of_next hstep, runLoop_of_halted hhalted]
    · have hpc : t.enterRun.pc = 256 := hc.pc_eq.trans (congrArg (· + 1) h255)
      rw [step_of_pc_outOfBounds (State.enterRun_enabled hhalted.2) (Nat.le_of_eq hpc.symm), hpc]

end Sys2Proof.Machine
end

section
/-! PROOFS. The ALU (42_alu.md): ADD and MUL modulo 256, the flag CMP sets, and how long FL keeps it. -/

namespace Sys2Proof

theorem FlagLayout.lt_eight_of_wf {l : FlagLayout} (hl : l.wf = true) : l.e < 8 ∧ l.g < 8 ∧ l.l < 8 := by
  simp only [FlagLayout.wf, Bool.and_eq_true, decide_eq_true_eq] at hl
  obtain ⟨⟨⟨⟨⟨he, hg⟩, hless⟩, -⟩, -⟩, -⟩ := hl
  exact ⟨he, hg, hless⟩

theorem Instr.op_eq_cmp {i : Instr} : i.op = .cmp ↔ ∃ a b, i = .cmp a b := by
  cases i with
  | cmp a b => exact iff_of_true rfl ⟨a, b, rfl⟩
  | _ => simp [Instr.op]

end Sys2Proof

namespace Sys2Proof.Machine

/-! ### The bits of the flag function -/

theorem bitByte_getLsbD {n : Nat} (hn : n < 8) (k : Nat) : (bitByte n).getLsbD k = true ↔ k = n := by
  simp [bitByte, BitVec.getLsbD_twoPow, hn, eq_comm]

/-- The one bit set is that of the ordering found, since the orderings exclude each other (42_alu.md rule R124). -/
theorem flagsWith_getLsbD {l : FlagLayout} (hl : l.wf = true) (va vb : RegVal) (k : Nat) :
    (flagsWith l va vb).getLsbD k = true ↔
      (k = l.e ∧ va.toNat = vb.toNat) ∨ (k = l.g ∧ va.toNat > vb.toNat) ∨ (k = l.l ∧ va.toNat < vb.toNat) := by
  obtain ⟨he, hg, hless⟩ := FlagLayout.lt_eight_of_wf hl
  obtain ⟨h, hflags⟩ | ⟨h, hflags⟩ | ⟨h, hflags⟩ := flagsWith_cases l va vb
  · rw [hflags, bitByte_getLsbD he]; omega
  · rw [hflags, bitByte_getLsbD hg]; omega
  · rw [hflags, bitByte_getLsbD hless]; omega

/-! ### What an instruction leaves of the control elements -/

/-- Each control element has one writer: FL has CMP, `running` has HLT, the output has PRN, and the fault record none. -/
theorem Completes.sameControl {l : FlagLayout} {i : Instr} {s t : State} (h : Completes l s i t)
    (hi : i.op ∉ [Op.cmp, Op.hlt, Op.prn]) : s.sameControl t := by
  obtain ⟨hcmp, hhlt, hprn⟩ : i.op ≠ .cmp ∧ i.op ≠ .hlt ∧ i.op ≠ .prn := by simpa using hi
  have hrun : t.running = s.running := by rw [h.running_eq, if_neg fun e => hhlt (congrArg Instr.op e)]
  exact ⟨h.fl_eq hcmp, hrun, h.fault_eq, h.output_eq hprn⟩

/-- A step that decodes no CMP keeps FL: a fault sets the record alone (42_alu.md rule R125). -/
theorem step_fl_eq {s t : State} (h : step s = .next t) (hcmp : ∀ a b, s.fetchDecode ≠ .ok (.cmp a b)) :
    t.fl = s.fl := by
  obtain ⟨-, ⟨⟨k, a, -, rfl⟩, -⟩ | ⟨i, hd, hc⟩⟩ := step_inversion h
  · rfl
  · refine hc.fl_eq fun hop => ?_
    obtain ⟨a, b, rfl⟩ := Instr.op_eq_cmp.1 hop
    exact hcmp a b hd

/-! ### The obligations -/

/-- Settles O16: CMP alone writes FL in a step, `run()` and `loadImage` set other elements, and `reset()` clears FL. -/
theorem flagsPersistUntilCmpOrReset : Obligations.FlagsPersistUntilCmpOrReset := by
  refine fun s => ⟨fun t => step_fl_eq, fun t h => ?_, fun bs start t h => ?_, rfl⟩
  · obtain ⟨-, rfl⟩ := State.runEntry_some h
    rfl
  · obtain ⟨-, -, rfl⟩ := State.loadImage_ok h
    rfl

/-- Settles O28: ADD always completes, and its register holds the sum modulo 256. -/
theorem addWrapsModulo256 : Obligations.AddWrapsModulo256 := by
  intro s a b
  have hc := Completes.add (l := Config.flagLayout) (s := s) a b
  refine ⟨_, rfl, ?_, hc.pc_eq, hc.sameRegsBut, hc.sameMemBut, hc.sameControl (by simp [Instr.op])⟩
  rw [State.sequence_reg, State.setReg_reg_same, addMod256_toNat]

/-- Settles O29: MUL always completes, and its register holds the product modulo 256. -/
theorem mulWrapsModulo256 : Obligations.MulWrapsModulo256 := by
  intro s a b
  have hc := Completes.mul (l := Config.flagLayout) (s := s) a b
  refine ⟨_, rfl, ?_, hc.pc_eq, hc.sameRegsBut, hc.sameMemBut, hc.sameControl (by simp [Instr.op])⟩
  rw [State.sequence_reg, State.setReg_reg_same, mulMod256_toNat]

/-- Settles O40: the bits of the flag function. -/
theorem flagFunctionUnderAnyLayout : Obligations.FlagFunctionUnderAnyLayout := fun _ hl va vb k =>
  flagsWith_getLsbD hl va vb k

/-- Settles O30: CMP always completes, and FL is the flag function of its two registers. -/
theorem cmpSetsExactlyOneFlag : Obligations.CmpSetsExactlyOneFlag := by
  intro s a b
  have hc := Completes.cmp (l := Config.flagLayout) (s := s) a b
  exact ⟨_, rfl, flagsWith_getLsbD Config.flagLayout_wf (s.reg a) (s.reg b), hc.pc_eq, hc.sameRegsBut, hc.sameMemBut,
    hc.running_eq, hc.fault_eq, hc.output_eq (by simp [Instr.op])⟩

end Sys2Proof.Machine
end

section
/-! PROOFS. The stack (43_stack_call.md): what PUSH, POP, CALL and RET compute and keep, that POP takes back what PUSH
stored and RET what CALL stored, and that no stack floor is written below. -/

namespace Sys2Proof.Machine

/-! ### What a push leaves -/

section Push

variable {s : State}

/-- The operand of PUSH and CALL is read after the decrement, which R7 shows (decision D8). -/
theorem State.setSp_spDown_reg_toNat (room : s.sp.toNat ≠ 0) (a : RegIdx) :
    ((s.setSp (spDown s.sp)).reg a).toNat = if a = Config.spIndex then s.sp.toNat - 1 else (s.reg a).toNat := by
  split
  · next ha => rw [ha, ← State.sp_eq, State.setSp_sp, spDown_toNat room]
  · next ha => rw [State.setSp_reg_other _ _ ha]

/-- The byte pushed is at the new stack pointer. -/
theorem State.pushByte_memRead_top (room : s.sp.toNat ≠ 0) (inMemory : s.sp.toNat ≤ 256) (v : Byte) :
    (s.pushByte v).memRead (spDown s.sp).toNat = some v := by
  rw [State.pushByte_memRead room inMemory, if_pos rfl]

end Push

/-! ### What a pop leaves -/

/-- POP increments the stack pointer that its own load left, which for R7 is the byte loaded (decision D8). -/
theorem spUp_setReg_sp_toNat {s : State} (notEmpty : s.sp.toNat < 256) (a : RegIdx) (v : Byte) :
    (spUp (s.setReg a (byteValue v)).sp).toNat = if a = Config.spIndex then v.toNat + 1 else s.sp.toNat + 1 := by
  rw [spUp_toNat (Nat.lt_trans (s.setReg_sp_lt a (byteValue_lt v) notEmpty) (by decide)), State.setReg_sp]
  by_cases ha : a = Config.spIndex
  · rw [if_pos ha.symm, if_pos ha, byteValue_toNat]
  · rw [if_neg (Ne.symm ha), if_neg ha]

/-! ### The stack floor -/

section Floor

variable {p : Params} {s t : State} {i : Instr}

theorem Instr.op_eq_push_or_call : (i.op = .push ∨ i.op = .call) ↔ ∃ a, i = .push a ∨ i = .call a := by
  cases i with
  | push a => exact iff_of_true (.inl rfl) ⟨a, .inl rfl⟩
  | call a => exact iff_of_true (.inr rfl) ⟨a, .inr rfl⟩
  | _ => simp [Instr.op]

/-- PUSH and CALL check the floor before anything else (43_stack_call.md rules R143, R145). -/
theorem execWith_overflow (hi : i.op = .push ∨ i.op = .call) (h : s.sp.toNat ≤ p.stackFloor) :
    execWith p i s = .next (s.withFault .stackOverflow s.sp.toNat) := by
  obtain ⟨a, rfl | rfl⟩ := Instr.op_eq_push_or_call.1 hi
  · exact execPushAt_overflow h a
  · exact execCallAt_overflow h a

/-- Above the floor neither PUSH nor CALL depends on it. -/
theorem execWith_eq_exec_of_floor_lt (hi : i.op = .push ∨ i.op = .call) (h : p.stackFloor < s.sp.toNat) :
    execWith p i s = exec i s := by
  obtain ⟨a, rfl | rfl⟩ := Instr.op_eq_push_or_call.1 hi
  · exact execPushAt_eq h a
  · exact execCallAt_eq h a

/-- Where PUSH or CALL passes the check, the byte it writes is at the floor or above it. -/
theorem execWith_memRead_below_floor (hi : i.op = .push ∨ i.op = .call) (h : execWith p i s = .next t) {addr : Nat}
    (haddr : addr < p.stackFloor) : t.memRead addr = s.memRead addr := by
  by_cases hfloor : s.sp.toNat ≤ p.stackFloor
  · rw [execWith_overflow hi hfloor] at h
    cases h; rfl
  obtain ⟨-, k, a, -, rfl⟩ | hc := execWith_cases h
  · rfl
  · have hstores : Instr.stores s i = [(spDown s.sp).toNat] := by
      obtain ⟨a, rfl | rfl⟩ := Instr.op_eq_push_or_call.1 hi <;> rfl
    have hbelow : addr < (spDown s.sp).toNat := by rw [spDown_toNat (by omega)]; omega
    exact hc.sameMemBut addr (by rw [hstores, List.mem_singleton]; exact Nat.ne_of_lt hbelow)

end Floor

/-! ### The obligations -/

/-- Settles O31: PUSH by the stack pointer; where there is room it completes when the register, read after the decrement,
holds a byte. -/
theorem pushStoresBelowTheStackPointer : Obligations.PushStoresBelowTheStackPointer := by
  intro s a
  refine ⟨fun h0 => ?_, fun hpos inMemory hreg => ?_, fun hpos inMemory ha hreg => ?_, fun h => execPush_outOfBounds h a⟩
  · exact h0 ▸ execPush_overflow h0 a
  · have room : s.sp.toNat ≠ 0 := Nat.ne_of_gt hpos
    have hvalue := State.setSp_spDown_reg_toNat room a
    have isByte : ((s.setSp (spDown s.sp)).reg a).toNat < 256 := by
      rw [hvalue]; split
      · omega
      · next ha => exact Nat.lt_succ_of_le (hreg ha)
    have hc := Completes.push (l := Config.flagLayout) a room inMemory isByte
    refine ⟨_, execPush_next room inMemory isByte, rfl, spDown_toNat room,
      ⟨_, State.pushByte_memRead_top room inMemory _, ?_⟩, hc.pc_eq, hc.sameRegsBut, hc.sameMemBut,
      hc.sameControl (by simp [Instr.op])⟩
    rw [setWidth8_toNat isByte, hvalue]
  · refine execPush_refused (Nat.ne_of_gt hpos) inMemory ?_
    rw [State.setSp_reg_other _ _ ha]; exact hreg

/-- Settles O32: POP by the stack pointer; where the stack is not empty it completes. -/
theorem popLoadsTheTopOfStack : Obligations.PopLoadsTheTopOfStack := by
  intro s a
  refine ⟨fun h => execPop_underflow h a, fun h => ?_⟩
  have notEmpty : s.sp.toNat < 256 := Nat.lt_succ_of_le h
  have hc := Completes.pop (l := Config.flagLayout) a notEmpty
  have hsp := spUp_setReg_sp_toNat notEmpty a (s.mem.get s.sp.toNat)
  refine ⟨_, _, execPop_next notEmpty a, s.memRead_of_lt notEmpty, fun ha => ⟨?_, ?_⟩, fun ha => ?_, hc.pc_eq,
    hc.sameRegsBut, hc.sameMemBut, hc.sameControl (by simp [Instr.op])⟩
  · rw [State.sequence_reg, State.setSp_reg_other _ _ ha, State.setReg_reg_same, byteValue_toNat]
  · rw [State.sequence_sp, State.setSp_sp, hsp, if_neg ha]
  · rw [State.sequence_sp, State.setSp_sp, hsp, if_pos ha]

/-- Settles O33: CALL by the stack pointer and the return address; where both checks pass it completes. -/
theorem callPushesTheReturnAddress : Obligations.CallPushesTheReturnAddress := by
  intro s a
  refine ⟨fun h0 => ?_, fun hpos hpc => execCall_noReturn (Nat.ne_of_gt hpos) hpc a, fun hpos inMemory returns => ?_,
    fun h hpc => execCall_outOfBounds h hpc a⟩
  · exact h0 ▸ execCall_overflow h0 a
  · have room : s.sp.toNat ≠ 0 := Nat.ne_of_gt hpos
    have hc := Completes.call (l := Config.flagLayout) a room inMemory returns
    have hreturn : (BitVec.ofNat 8 (s.pc + 2)).toNat = s.pc + 2 := Nat.mod_eq_of_lt (by omega)
    exact ⟨_, execCall_next room inMemory returns a, rfl, spDown_toNat room,
      ⟨_, State.pushByte_memRead_top room inMemory _, hreturn⟩, hc.pc_eq, hc.sameRegsBut, hc.sameMemBut,
      hc.sameControl (by simp [Instr.op])⟩

/-- Settles O34: RET by the stack pointer; where the stack is not empty it completes. -/
theorem retPopsTheProgramCounter : Obligations.RetPopsTheProgramCounter := by
  refine fun s => ⟨execRet_underflow, fun h => ?_⟩
  have notEmpty : s.sp.toNat < 256 := Nat.lt_succ_of_le h
  have hc := Completes.ret (l := Config.flagLayout) notEmpty
  exact ⟨_, _, execRet_next notEmpty, s.memRead_of_lt notEmpty, hc.pc_eq, spUp_toNat (Nat.lt_trans notEmpty (by decide)),
    hc.sameRegsBut, hc.sameMemBut, hc.sameControl (by decide)⟩

/-- Settles O38: POP reads the byte PUSH stored, and adds one to the stack pointer PUSH left; R7 was stored decremented and
is loaded before the increment. -/
theorem pushThenPopRestores : Obligations.PushThenPopRestores := by
  intro s a hpos inMemory hreg
  obtain ⟨-, hpush, -⟩ := pushStoresBelowTheStackPointer s a
  obtain ⟨t, hx, hsp, hspNat, ⟨v, hstored, hv⟩, -⟩ := hpush hpos inMemory hreg
  refine ⟨t, hx, fun u husp hcell => ?_⟩
  have hspUp : u.sp.toNat + 1 = s.sp.toNat := by rw [husp, hspNat, Nat.sub_add_cancel hpos]
  have htop : u.memRead u.sp.toNat = some v := by rw [husp, hcell, hsp, hstored]
  obtain ⟨-, hpop⟩ := popLoadsTheTopOfStack u a
  obtain ⟨w, v', hy, hloaded, hother, hR7, -⟩ := hpop (Nat.le_of_succ_le_succ (hspUp.trans_le inMemory))
  obtain rfl : v' = v := Option.some.inj (hloaded.symm.trans htop)
  refine ⟨w, hy, ?_⟩
  by_cases ha : a = Config.spIndex
  · rw [if_pos ha] at hv
    have hrestored : w.sp = s.sp := BitVec.eq_of_toNat_eq (by rw [hR7 ha, hv, Nat.sub_add_cancel hpos])
    exact ⟨ha ▸ hrestored, hrestored⟩
  · rw [if_neg ha] at hv
    obtain ⟨hvalue, hspW⟩ := hother ha
    exact ⟨BitVec.eq_of_toNat_eq (hvalue.trans hv), BitVec.eq_of_toNat_eq (hspW.trans hspUp)⟩

/-- Settles O39: RET reads the return address CALL stored, and adds one to the stack pointer CALL left. -/
theorem callThenRetReturns : Obligations.CallThenRetReturns := by
  intro s a hpos inMemory returns
  obtain ⟨-, -, hcall, -⟩ := callPushesTheReturnAddress s a
  obtain ⟨t, hx, hsp, hspNat, ⟨v, hstored, hv⟩, -⟩ := hcall hpos inMemory returns
  refine ⟨t, hx, fun u husp hcell => ?_⟩
  have hspUp : u.sp.toNat + 1 = s.sp.toNat := by rw [husp, hspNat, Nat.sub_add_cancel hpos]
  have htop : u.memRead u.sp.toNat = some v := by rw [husp, hcell, hsp, hstored]
  obtain ⟨-, hret⟩ := retPopsTheProgramCounter u
  obtain ⟨w, v', hy, hloaded, hpc, hspW, -⟩ := hret (Nat.le_of_succ_le_succ (hspUp.trans_le inMemory))
  obtain rfl : v' = v := Option.some.inj (hloaded.symm.trans htop)
  exact ⟨w, hy, hpc.trans hv, BitVec.eq_of_toNat_eq (hspW.trans hspUp)⟩

/-- Settles O52: the check over the integers is `sp ≤ STACK_FLOOR`, and a check that passes leaves the written address at
the floor or above it. -/
theorem pushAndCallRespectAnyStackFloor : Obligations.PushAndCallRespectAnyStackFloor := fun _ _ _ hi =>
  ⟨fun h => execWith_overflow hi (by omega), fun h => execWith_eq_exec_of_floor_lt hi (by omega),
    fun _ _ h haddr => execWith_memRead_below_floor hi h haddr⟩

end Sys2Proof.Machine
end

section
/-! PROOFS. The jumps (44_jumps.md): where JMP, JEQ and JNE go, and that the conditional ones follow the last CMP. -/

namespace Sys2Proof.Machine

/-! ### The E bit from a CMP to a jump -/

section LastCmp

variable {s t u : State} {a b c : RegIdx}

/-- FL persists along steps without CMP (42_alu.md rule R125). -/
theorem StepsWithoutCmp.fl_eq (h : StepsWithoutCmp s t) : t.fl = s.fl := by
  induction h with
  | refl s => rfl
  | step i hd hop hstep _ ih =>
    refine ih.trans (step_fl_eq hstep fun a b hcmp => hop ?_)
    exact Except.ok.inj (hd.symm.trans hcmp) ▸ rfl

/-- The step of a CMP leaves E set exactly where the values are equal (42_alu.md rules R123, R124). -/
theorem equalFlag_iff_of_step_cmp (hd : s.fetchDecode = .ok (.cmp a b)) (h : step s = .next t) :
    t.equalFlag = true ↔ (s.reg a).toNat = (s.reg b).toNat := by
  obtain ⟨he, -⟩ := step_inversion h
  cases (step_of_decoded he hd).symm.trans h
  have hbits := flagsWith_getLsbD Config.flagLayout_wf (s.reg a) (s.reg b) Config.flagLayout.e
  refine hbits.trans ?_
  simp [Config.flagLayout]

/-- E tells what the last CMP found, however many other steps came after it (44_jumps.md rule R174). -/
theorem equalFlag_iff_of_last_cmp (hd : s.fetchDecode = .ok (.cmp a b)) (h : step s = .next t)
    (hsteps : StepsWithoutCmp t u) : u.equalFlag = true ↔ (s.reg a).toNat = (s.reg b).toNat := by
  have hkept : u.equalFlag = t.equalFlag := congrArg (·.getLsbD Config.flagLayout.e) hsteps.fl_eq
  rw [hkept, equalFlag_iff_of_step_cmp hd h]

end LastCmp

/-! ### The obligations -/

/-- Settles O35: JMP always completes, at the value of its register. -/
theorem jmpGoesToTheRegister : Obligations.JmpGoesToTheRegister := by
  intro s a
  have hc := Completes.jmp (l := Config.flagLayout) (s := s) a
  exact ⟨_, rfl, hc.pc_eq, hc.sameRegsBut, hc.sameMemBut, hc.sameControl (by simp [Instr.op])⟩

/-- Settles O36: JEQ always completes, and rule R90 gives its target by the E bit. -/
theorem jeqJumpsWhenEqual : Obligations.JeqJumpsWhenEqual := by
  intro s a
  have hc := Completes.jeq (l := Config.flagLayout) (s := s) a
  exact ⟨_, rfl, hc.pc_eq, hc.sameRegsBut, hc.sameMemBut, hc.sameControl (by simp [Instr.op])⟩

/-- Settles O37: JNE always completes, and rule R90 gives its target by the E bit, the branches the other way round. -/
theorem jneJumpsWhenNotEqual : Obligations.JneJumpsWhenNotEqual := by
  intro s a
  have hc := Completes.jne (l := Config.flagLayout) (s := s) a
  have hpc : Instr.pcAfter (.jne a) s =
      if s.fl.getLsbD Config.flagLayout.e = false then (s.reg a).toNat else s.pc + 2 := by
    cases he : s.fl.getLsbD Config.flagLayout.e with
    | true => exact if_pos he
    | false => exact if_neg (Bool.not_eq_true _ ▸ he)
  exact ⟨_, rfl, hc.pc_eq.trans hpc, hc.sameRegsBut, hc.sameMemBut, hc.sameControl (by simp [Instr.op])⟩

/-- Settles O17: the E bit the jump reads is the one the CMP left, and each jump goes by it. -/
theorem jumpsFollowTheLastCmp : Obligations.JumpsFollowTheLastCmp := by
  intro s t u a b hcmp hstep hsteps he c
  have hE : u.equalFlag = true ↔ (s.reg a).toNat = (s.reg b).toNat := equalFlag_iff_of_last_cmp hcmp hstep hsteps
  refine ⟨fun hd => ⟨_, step_of_decoded he hd, ?_⟩, fun hd => ⟨_, step_of_decoded he hd, ?_⟩⟩
  · exact (Completes.jeq c).pc_eq.trans (if_congr hE rfl rfl)
  · exact (Completes.jne c).pc_eq.trans (if_congr hE rfl rfl)

end Sys2Proof.Machine
end

section
/-! PROOFS. The stopped core (60_exceptions.md sections 2 and 4): what the step answers after HLT and after a fault, and
what the host may then call. -/

namespace Sys2Proof.Machine

/-! ### Halted -/

section Halted

variable {s : State}

/-- After HLT no step runs (60_exceptions.md rule R213). -/
theorem step_of_halted (h : s.halted) : step s = .refused .notRunning := by
  obtain ⟨hrun, hf⟩ := h
  simp [step, State.cycle, hrun, hf]

theorem State.enabled_of_halted (h : s.halted) : s.enabled = false := by
  obtain ⟨hrun, -⟩ := h
  simp [State.enabled, hrun]

/-- `reset()` ends in the wait state (70_reset_and_hazards.md rule R231). -/
theorem State.hostReset_halted (s : State) : s.hostReset.halted := ⟨rfl, rfl⟩

end Halted

/-! ### A fault recorded -/

section Faulted

variable {s : State} {r : FaultRecord}

/-- While a fault is recorded every step reports it (60_exceptions.md rule R205). -/
theorem step_of_fault (h : s.fault = some r) : step s = .fault (.recorded r) := by
  simp [step, State.cycle, h]

theorem State.enabled_of_fault (h : s.fault = some r) : s.enabled = false := by
  simp [State.enabled, h]

/-- The admission of `run()` and `loadImage` fails where a fault is recorded (70_reset_and_hazards.md rules R232, R233). -/
theorem State.busy_of_fault (h : s.fault = some r) : (s.running || s.fault.isSome) = true := by
  simp [h]

theorem State.runEntry_of_fault (h : s.fault = some r) : s.runEntry = none := if_pos (State.busy_of_fault h)

theorem State.loadImage_of_fault (h : s.fault = some r) (bs : List Byte) (start : Nat) :
    s.loadImage bs start = .refused := if_pos (State.busy_of_fault h)

end Faulted

/-! ### The obligation -/

/-- Settles O11: `reset()` is admitted since no step is enabled, and the state it leaves is halted, so that `run()` is
admitted there as it is after HLT. -/
theorem stoppedCoreWaitsForTheHost : Obligations.StoppedCoreWaitsForTheHost := by
  refine fun s => ⟨fun h => ?_, fun r hr => ?_⟩
  · have hreset := resetEntry_of_not_enabled (State.enabled_of_halted h)
    exact ⟨step_of_halted h, hreset, s.enterRun, State.runEntry_of_halted h, State.enterRun_enabled h.2, rfl⟩
  · have hreset := resetEntry_of_not_enabled (State.enabled_of_fault hr)
    obtain ⟨hrun, hclear⟩ := s.hostReset_halted
    have hadmitted : s.hostReset.runEntry = some s.hostReset.enterRun := State.runEntry_of_halted ⟨hrun, hclear⟩
    exact ⟨step_of_fault hr, State.runEntry_of_fault hr, State.loadImage_of_fault hr, hreset, hclear,
      hadmitted ▸ Option.some_ne_none _⟩

end Sys2Proof.Machine
end

section
/-! PROOFS. The host (70_reset_and_hazards.md): when `reset()`, `loadImage` and `run()` are admitted, what each changes,
and that the step after a load runs the instruction loaded. -/

namespace Sys2Proof

/-- No instruction is wider than the three bytes of a table word (30_encoding.md rule R60). -/
theorem Instr.width_le_three (i : Instr) : i.width ≤ 3 := by
  have hcount := Op.operandCount_le_two i.op
  rw [Instr.width_eq]; omega

end Sys2Proof

namespace Sys2Proof.Machine

/-! ### Admission -/

section Admission

variable {s : State}

/-- What `loadImage` and `run()` test is that the core runs or a fault is recorded (rules R232, R233). -/
theorem State.busy_iff : (s.running || s.fault.isSome) = true ↔ s.running = true ∨ s.fault ≠ none := by
  rw [Bool.or_eq_true, Option.isSome_iff_ne_none]

theorem State.runEntry_of_busy (h : s.running = true ∨ s.fault ≠ none) : s.runEntry = none :=
  if_pos (State.busy_iff.2 h)

theorem State.loadImage_of_busy (h : s.running = true ∨ s.fault ≠ none) (bs : List Byte) (start : Nat) :
    s.loadImage bs start = .refused := if_pos (State.busy_iff.2 h)

/-- A halted state admits `loadImage`, which checks the bound first (rule R232). -/
theorem State.loadImage_of_halted (h : s.halted) (bs : List Byte) (start : Nat) :
    s.loadImage bs start = if 256 < start + bs.length then .imageTooLarge (start + bs.length)
      else .ok { s with mem := s.mem.setBytes start bs } := by
  obtain ⟨hrun, hf⟩ := h
  simp [State.loadImage, hrun, hf, Config.memCapacity]

theorem State.loadImage_fits (h : s.halted) {bs : List Byte} {start : Nat} (fits : start + bs.length ≤ 256) :
    s.loadImage bs start = .ok { s with mem := s.mem.setBytes start bs } :=
  (State.loadImage_of_halted h bs start).trans (if_neg (Nat.not_lt.2 fits))

theorem State.loadImage_ne_refused (h : s.halted) (bs : List Byte) (start : Nat) :
    s.loadImage bs start ≠ .refused := by
  rw [State.loadImage_of_halted h]; split <;> exact LoadResult.noConfusion

/-- Without a fault, a state where no step is enabled is halted. -/
theorem State.halted_of_not_enabled (he : s.enabled = false) (hf : s.fault = none) : s.halted := by
  obtain hon | hhalt | ⟨r, hr⟩ := s.enabled_or_stopped
  · exact absurd hon (Bool.eq_false_iff.1 he)
  · exact hhalt
  · rw [hr] at hf; cases hf

/-- During a run no host move changes anything (rule R234, decision D21). -/
theorem State.hostMove_of_enabled (he : s.enabled = true) (op : HostOp) : s.hostMove op = s := by
  have hrun : s.running = true := (State.enabled_iff.1 he).1
  cases op with
  | reset => rw [State.hostMove, resetEntry_of_enabled he, Option.getD_none]
  | loadImage bs start => simp only [State.hostMove, State.loadImage_of_busy (.inl hrun)]
  | run => rw [State.hostMove, State.runEntry_of_busy (.inl hrun), Option.getD_none]

end Admission

/-! ### Effects -/

@[simp] theorem Regs.zero_get (i : RegIdx) : Regs.zero.get i = 0 := by fin_cases i <;> rfl

@[simp] theorem State.enterRun_pc (s : State) : s.enterRun.pc = s.pc := rfl
@[simp] theorem State.enterRun_memRead (s : State) (a : Nat) : s.enterRun.memRead a = s.memRead a := rfl

/-- `run()` writes the stack pointer alone among the registers (rule R233, decision D16). -/
theorem State.enterRun_sameRegsBut (s : State) : s.sameRegsBut s.enterRun [Config.spIndex] := fun _ hi =>
  State.setSp_reg_other _ _ (List.ne_of_not_mem_cons hi)

section Load

variable {s : State} {bs : List Byte} {start : Nat}

/-- An address the bytes cover reads its byte. -/
theorem State.memRead_setBytes_inside (fits : start + bs.length ≤ 256) {k : Nat} (hk : k < bs.length) :
    ({ s with mem := s.mem.setBytes start bs } : State).memRead (start + k) = bs[k]? := by
  rw [State.memRead_of_lt _ (by omega), Memory.get_setBytes, if_pos (Nat.le_add_right start k), Nat.add_sub_cancel_left,
    List.getElem?_eq_getElem hk, Option.getD_some]

/-- An address the bytes do not cover reads as before. -/
theorem State.memRead_setBytes_outside {a : Nat} (ha : a < start ∨ start + bs.length ≤ a) :
    ({ s with mem := s.mem.setBytes start bs } : State).memRead a = s.memRead a := by
  have hget : (s.mem.setBytes start bs).get a = s.mem.get a := by
    rw [Memory.get_setBytes]
    obtain below | above := ha
    · rw [if_neg (Nat.not_le.2 below)]
    · rw [List.getElem?_eq_none (by omega), Option.getD_none, ite_self]
  rw [State.memRead, hget, State.memRead]

/-- Bytes stored at the program counter are read there, as far as memory goes. -/
theorem State.placeAtPc_memRead {k : Nat} (hk : k < bs.length) (inMemory : s.pc + k < 256) :
    (s.placeAtPc bs).memRead (s.pc + k) = bs[k]? := by
  have hlen : (bs.take (256 - s.pc)).length = min (256 - s.pc) bs.length := List.length_take
  have hread := State.memRead_setBytes_inside (s := s) (bs := bs.take (256 - s.pc)) (start := s.pc) (by omega)
    (k := k) (by omega)
  exact hread.trans (List.getElem?_take_of_lt (Nat.lt_sub_iff_add_lt'.2 inMemory))

end Load

/-! ### The model's own loading convention (log entry 11) -/

/-- A word that decodes is the encoding of the instruction, on every byte of its width. -/
theorem tableBytes_of_decodeTableWord {nbits w : Nat} {i : Instr} (h : decodeTableWord nbits w = some i) {k : Nat}
    (hk : k < i.width) : (tableBytes nbits w)[k]? = (encode i)[k]? := by
  have hok : decodeBytes (tableBytes nbits w) = .ok i := by
    rw [decodeTableWord] at h
    cases hd : decodeBytes (tableBytes nbits w) with
    | error e => rw [hd] at h; cases h
    | ok j => rw [hd] at h; cases h; rfl
  exact decodeAcceptsOnlyEncodings _ _ i hok k hk

section WithFetchWord

variable (s : State) (nbits w : Nat)

@[simp] theorem State.withFetchWord_pc : (s.withFetchWord nbits w).pc = s.pc := by
  unfold State.withFetchWord; split <;> rfl

@[simp] theorem State.withFetchWord_memRead (a : Nat) :
    (s.withFetchWord nbits w).memRead a = (s.placeAtPc (tableBytes nbits w)).memRead a := by
  unfold State.withFetchWord; split <;> rfl

/-- The fault record is cleared, and a core that does not run is set running as `run()` does. -/
theorem State.withFetchWord_enabled : (s.withFetchWord nbits w).enabled = true := by
  unfold State.withFetchWord
  split
  · next hrun => exact State.enabled_iff.2 ⟨hrun, rfl⟩
  · exact State.enterRun_enabled rfl

end WithFetchWord

/-- Every byte of the instruction stands where the next step fetches it. -/
theorem State.withFetchWord_holds_encode {s : State} {nbits w : Nat} {i : Instr} (h : decodeTableWord nbits w = some i)
    (fits : s.pc + i.width ≤ 256) {k : Nat} (hk : k < i.width) :
    (s.withFetchWord nbits w).memRead ((s.withFetchWord nbits w).pc + k) = (encode i)[k]? := by
  have hlen : k < (tableBytes nbits w).length := Nat.lt_of_lt_of_le hk i.width_le_three
  rw [State.withFetchWord_pc, State.withFetchWord_memRead, State.placeAtPc_memRead hlen (by omega),
    tableBytes_of_decodeTableWord h hk]

/-! ### The obligations -/

/-- Settles O42: the admission, then the bound, then the bytes of `Memory.setBytes`. -/
theorem loadImageCopiesTheBytes : Obligations.LoadImageCopiesTheBytes := by
  intro s bs start
  refine ⟨fun h => State.loadImage_of_busy h bs start, fun h large => ?_, fun h fits => ?_⟩
  · rw [State.loadImage_of_halted h, if_pos large]
  · exact ⟨_, State.loadImage_fits h fits, fun k hk => State.memRead_setBytes_inside fits hk,
      fun a ha => State.memRead_setBytes_outside ha, rfl⟩

/-- Settles O46: the image lies at 0, the program counter of the reset state, and `run()` moves neither of them. -/
theorem bootRunsTheFirstInstruction : Obligations.BootRunsTheFirstInstruction := by
  intro i rest hlen
  have fits : 0 + (encode i ++ rest).length ≤ 256 := by rwa [Nat.zero_add]
  have hload := State.loadImage_fits (s := State.reset) ⟨rfl, rfl⟩ fits
  refine ⟨_, _, hload, State.runEntry_of_halted ⟨rfl, rfl⟩, rfl, rfl, ?_⟩
  refine ((stepRunsTheDecodedInstruction _ i (State.enterRun_enabled rfl)).1 fun k hk => ?_).2
  have hk' : k < (encode i).length := (encodeWith_length Config.opcodeMap i).symm ▸ hk
  have hread := State.memRead_setBytes_inside (s := State.reset) fits (k := k)
    (by rw [List.length_append]; exact Nat.lt_add_right _ hk')
  rw [State.enterRun_memRead, State.enterRun_pc]
  exact hread.trans (List.getElem?_append_left hk')

/-- Settles O47: the word's bytes are the encoding of the instruction, and they stand at the program counter. -/
theorem fetchWordIsTheNextStep : Obligations.FetchWordIsTheNextStep := by
  intro s nbits w i hw hfit
  have he := s.withFetchWord_enabled nbits w
  have fits : s.pc + i.width ≤ 256 := of_decide_eq_true hfit
  obtain ⟨hencoded, -⟩ := stepRunsTheDecodedInstruction _ i he
  exact ⟨he, (hencoded fun k hk => State.withFetchWord_holds_encode hw fits hk).2⟩

/-- Settles O49: a run that is on refuses every move; a state with no step enabled is halted or has a fault recorded. -/
theorem hostActsOnlyBetweenRuns : Obligations.HostActsOnlyBetweenRuns := by
  refine fun s => ⟨fun he => ?_, fun he => ?_⟩
  · obtain ⟨hrun, -⟩ := State.enabled_iff.1 he
    exact ⟨resetEntry_of_enabled he, State.runEntry_of_busy (.inl hrun), State.loadImage_of_busy (.inl hrun),
      State.hostMove_of_enabled he⟩
  · have hreset := resetEntry_of_not_enabled he
    refine ⟨hreset, by rw [State.hostMove, hreset, Option.getD_some], fun hf => ?_, fun hf => ?_⟩
    · have hhalted := State.halted_of_not_enabled he hf
      have hadmitted := State.runEntry_of_halted hhalted
      have hmove : s.hostMove .run = s.enterRun := by rw [State.hostMove, hadmitted, Option.getD_some]
      rw [hmove]
      exact ⟨hadmitted, State.enterRun_enabled hf, State.loadImage_ne_refused hhalted⟩
    · exact ⟨State.runEntry_of_busy (.inr hf), State.loadImage_of_busy (.inr hf)⟩

/-- Settles O41: but for the output, the state after `reset()` is the reset state, whose memory lists no cell. -/
theorem resetZeroesEverythingButOutput : Obligations.ResetZeroesEverythingButOutput := fun s =>
  ⟨fun _ ha => s.hostReset.memRead_of_lt ha, Regs.zero_get, rfl, rfl, rfl, rfl, rfl, rfl⟩

/-- Settles O43: `run()` is admitted in a halted state and writes `running` and the stack pointer. -/
theorem runEntrySetsRunningAndStackPointer : Obligations.RunEntrySetsRunningAndStackPointer := fun s h =>
  ⟨s.enterRun, State.runEntry_of_halted h, State.enterRun_enabled h.2, rfl, s.enterRun_sameRegsBut, fun _ _ => rfl,
    rfl, rfl, rfl⟩

end Sys2Proof.Machine
end
